-- ==== Sys2Proof/Word.lean ====
section
/-!
DEFINITION. The plain types of the block (00_scope.md R9 to R12): 32-bit command and micro-op words, 8-bit channels,
24-bit colour words, and model time. Every value is unsigned and bit 0 is the least significant (R9).
-/
namespace Sys2Proof

/-- A host command (format H, R56) or a micro-op (format M, R57): both are 32 bits, the only length there is (R69). -/
abbrev Word := BitVec 32

/-- One colour channel, 0..255 (R7 `W_CH`, R61). -/
abbrev Channel := BitVec 8

/-- A 24-bit bit sequence written as the number `S` of R10: sequence element `i` is bit `i`. -/
abbrev ColourWord := BitVec 24

/-- Model time and durations, in nanoseconds (R12). R12's numbers are the NON-NEGATIVE rationals; the type is all of
them, and that no time is negative (log entry 15) is kept as an invariant (`State.Inv` of Safety.lean) and by the checks on every
duration that enters the machine (`Params` of Config.lean, `moveIsPossible` of Machine/Engine.lean). -/
abbrev Ns := Rat

end Sys2Proof
end

