-- ==== Sys2Proof/Config.lean ====
section
/-!
DEFINITION. The constants and OPEN parameters of 00_scope.md R7, the nominal model of R8, and the one uninterpreted
constant `Config.raw` from which the machine `Sys2Proof.core` takes its parameters. The parameters are not state and no
command changes them (R39). Everything in Machine/ that reads a parameter takes it as an argument `p : Params`, as R7
asks of an OPEN parameter; the host's `exec` and `step` are those definitions at `Config.params`.
-/
namespace Sys2Proof

/-- `T_LONG`, nominal duration of the long delay primitive (R7, source). -/
def Config.tLong : Ns := 800
/-- `T_SHORT` (R7, source). -/
def Config.tShort : Ns := 400
/-- `T_TRIM` (R7, source). -/
def Config.tTrim : Ns := 50
/-- `T1H`, nominal high phase of a one-pulse (R7, source). -/
def Config.t1h : Ns := 800
/-- `T1L`, nominal low phase of a one-pulse (R7, source). -/
def Config.t1l : Ns := 450
/-- `T0H`, nominal high phase of a zero-pulse (R7, source). -/
def Config.t0h : Ns := 400
/-- `T0L`, nominal low phase of a zero-pulse (R7, source). -/
def Config.t0l : Ns := 850
/-- `T_BIT`, nominal period of every pulse (R7, source). -/
def Config.tBit : Ns := 1250
/-- `T_RESET_MIN`, the least continuous low of the end-of-frame signal (R7, source; 90_conflicts.md C4). -/
def Config.tResetMin : Ns := 300000
/-- `N_BITS`, the bits of one colour word on the wire (R7, source). -/
def Config.nBits : Nat := 24

/-- One delay primitive whose nominal duration is `nominal`, with its OPEN parameters (R7, R95, R96). `draw n` is the
actual duration of the execution numbered `n`: a free value within the tolerance, one draw per execution (R96). -/
structure DelayPrimitive (nominal : Ns) where
  /-- `TOL_x`. -/
  tol : Ns
  /-- `D_x` of the execution numbered by the argument. -/
  draw : Nat → Ns
  /-- `N_x`, the whole count of clock cycles; no rule of the model reads it (R95, R187). -/
  cycles : Nat
  tol_nonneg : 0 ≤ tol
  draw_ge : ∀ n, nominal - tol ≤ draw n
  draw_le : ∀ n, draw n ≤ nominal + tol
  /-- DEDUCED (log entry 5): `D_x = N_x / F_CLK` with a positive `N_x` (R95), so every delay takes time (R138). -/
  draw_pos : ∀ n, 0 < draw n
  cycles_pos : 0 < cycles

/-- The OPEN parameters of R7, with the bounds R7 gives them. -/
structure Params where
  /-- `HAS_EXTRA_POLICIES`. -/
  hasExtraPolicies : Bool
  /-- `PREEMPTION`: whether HOST has the stall step (R162). -/
  preemption : Bool
  /-- `D_DRV`, the time one pin drive occupies. -/
  dDrv : Ns
  /-- `D_LATCH`, the duration of the latch hold. -/
  dLatch : Ns
  long : DelayPrimitive Config.tLong
  short : DelayPrimitive Config.tShort
  trim : DelayPrimitive Config.tTrim
  /-- `TOL_RX` of the reference wire decoder (R140). -/
  tolRx : Ns
  /-- `GAP_MAX`, a bound on HOST's gaps inside a frame (R178); only HOST's duties read it. -/
  gapMax : Ns
  /-- `F_CLK` in Hz; no rule of the model reads it (R95, R187). -/
  fClk : Rat
  dDrv_nonneg : 0 ≤ dDrv
  dLatch_ge : Config.tResetMin ≤ dLatch
  tolRx_nonneg : 0 ≤ tolRx
  tolRx_lt : tolRx < 200
  gapMax_nonneg : 0 ≤ gapMax
  fClk_pos : 0 < fClk

/-- The nominal model (R8): the delays exact, drives free of time, the shortest latch, no stalls. Host gaps are HOST's
steps and not a parameter. -/
structure Params.IsNominal (p : Params) : Prop where
  long : ∀ n, p.long.draw n = Config.tLong
  short : ∀ n, p.short.draw n = Config.tShort
  trim : ∀ n, p.trim.draw n = Config.tTrim
  dDrv : p.dDrv = 0
  dLatch : p.dLatch = Config.tResetMin
  preemption : p.preemption = false

/-- A delay primitive that takes exactly its nominal duration (R8, `TOL_x = 0`). -/
def DelayPrimitive.exact (nominal : Ns) (h : 0 < nominal) (cycles : Nat) (hc : 0 < cycles) : DelayPrimitive nominal where
  tol := 0
  draw := fun _ => nominal
  cycles := cycles
  tol_nonneg := Rat.le_refl
  draw_ge := fun _ => by simp
  draw_le := fun _ => by simp
  draw_pos := fun _ => h
  cycles_pos := hc

/-- An instance of the nominal model, for tests and witnesses. Its clock is 20 MHz, where the nominal durations are whole
counts of cycles (R100); R7 leaves the clock OPEN and no rule reads it. -/
def Params.nominal : Params where
  hasExtraPolicies := true
  preemption := false
  dDrv := 0
  dLatch := Config.tResetMin
  long := .exact Config.tLong (by decide +kernel) 16 (by decide)
  short := .exact Config.tShort (by decide +kernel) 8 (by decide)
  trim := .exact Config.tTrim (by decide +kernel) 1 (by decide)
  tolRx := 0
  gapMax := 0
  fClk := 20000000
  dDrv_nonneg := Rat.le_refl
  dLatch_ge := Rat.le_refl
  tolRx_nonneg := Rat.le_refl
  tolRx_lt := by decide +kernel
  gapMax_nonneg := Rat.le_refl
  fClk_pos := by decide +kernel

/-- The duration in ns of `cycles` cycles of a clock of `hz` Hz: `D_x = N_x / F_CLK` (R95). -/
def cycleDuration (cycles : Nat) (hz : Rat) : Ns :=
  (cycles : Rat) * 1000000000 / hz

/-! ## The machine's own parameters: free values

`Config.raw` has no body, so no proof can see a value of it. `Params.ofRaw` only brings a value that lies outside R7's
bounds back into them, and every `Params` is `Params.ofRaw` of some raw value (Laws/Config.lean), so nothing R7 allows is
excluded and nothing is chosen. -/

/-- The raw form of a delay primitive's parameters: no bound is imposed yet. -/
structure RawDelay where
  tol : Ns
  draw : Nat → Ns
  cycles : Nat
deriving Inhabited

/-- The raw form of the OPEN parameters of R7: no bound is imposed yet. -/
structure RawParams where
  hasExtraPolicies : Bool
  preemption : Bool
  dDrv : Ns
  dLatch : Ns
  long : RawDelay
  short : RawDelay
  trim : RawDelay
  tolRx : Ns
  gapMax : Ns
  fClk : Rat
deriving Inhabited

/-- `x` where `x ≥ lo`, else `lo`. -/
def atLeast (lo x : Rat) : Rat :=
  if lo ≤ x then x else lo

theorem atLeast_ge (lo x : Rat) : lo ≤ atLeast lo x := by
  unfold atLeast
  split
  · assumption
  · exact Rat.le_refl

/-- A raw draw where it lies in `[nominal - tol, nominal + tol]` and is positive, else the nominal duration. -/
def boundedDraw (nominal tol x : Ns) : Ns :=
  if nominal - tol ≤ x ∧ x ≤ nominal + tol ∧ 0 < x then x else nominal

/-- A raw delay brought within the bounds of R95 and R96. -/
def DelayPrimitive.ofRaw (nominal : Ns) (h : 0 < nominal) (r : RawDelay) : DelayPrimitive nominal where
  tol := atLeast 0 r.tol
  draw := fun n => boundedDraw nominal (atLeast 0 r.tol) (r.draw n)
  cycles := r.cycles - 1 + 1
  tol_nonneg := atLeast_ge 0 _
  draw_ge := fun n => by
    have ht := atLeast_ge 0 r.tol
    unfold boundedDraw
    split
    · next hc => exact hc.1
    · linarith
  draw_le := fun n => by
    have ht := atLeast_ge 0 r.tol
    unfold boundedDraw
    split
    · next hc => exact hc.2.1
    · linarith
  draw_pos := fun n => by
    unfold boundedDraw
    split
    · next hc => exact hc.2.2
    · exact h
  cycles_pos := Nat.succ_pos _

/-- The raw parameters brought within R7's bounds. -/
def Params.ofRaw (r : RawParams) : Params where
  hasExtraPolicies := r.hasExtraPolicies
  preemption := r.preemption
  dDrv := atLeast 0 r.dDrv
  dLatch := atLeast Config.tResetMin r.dLatch
  long := .ofRaw Config.tLong (by decide +kernel) r.long
  short := .ofRaw Config.tShort (by decide +kernel) r.short
  trim := .ofRaw Config.tTrim (by decide +kernel) r.trim
  tolRx := if 0 ≤ r.tolRx ∧ r.tolRx < 200 then r.tolRx else 0
  gapMax := atLeast 0 r.gapMax
  fClk := if 0 < r.fClk then r.fClk else 1
  dDrv_nonneg := atLeast_ge 0 _
  dLatch_ge := atLeast_ge _ _
  tolRx_nonneg := by
    split
    · next hc => exact hc.1
    · exact Rat.le_refl
  tolRx_lt := by
    split
    · next hc => exact hc.2
    · decide +kernel
  gapMax_nonneg := atLeast_ge 0 _
  fClk_pos := by
    split
    · assumption
    · decide +kernel

/-- The free values: every OPEN parameter of R7, and the draws of R96. No body: nothing can be proved of its value. -/
opaque Config.raw : RawParams

/-- The parameters of the machine `Sys2Proof.core` (log entry 4). -/
def Config.params : Params := .ofRaw Config.raw

end Sys2Proof
end

