-- ==== Sys2Proof/Syntax.lean ====
section
/-!
DEFINITION. The syntax of the block: the nine rows of the opcode map (30_encoding.md R64) as the constructors of `Instr`,
the channel-order policies (R60), a colour value (R76), and the names of the command faults (60_exceptions.md R152).
-/
namespace Sys2Proof

/-- The channel-order policies that have a bit map (R23, R60). Policy code `11` names none of them (R86). -/
inductive Policy
  | brg
  | rgb
  | grb
deriving DecidableEq, Repr

/-- A colour value (R76, R77): three unsigned 8-bit channels, compared channel by channel. -/
structure Colour where
  r : Channel
  g : Channel
  b : Channel
deriving DecidableEq, Repr

/-- The command fault codes of R152 by name; `noFault` is NONE. The codes `0x06` to `0xFF` are never raised (I21) and
have no constructor. -/
inductive FaultCode
  | noFault
  | illegalOpcode
  | reservedNonzero
  | badPolicy
  | notBound
  | alreadyBound
deriving DecidableEq, Repr

/-- The nine rows of the opcode map (R64). The first three are format H, issued by HOST; the other six are format M, the
sequencer's own micro-ops, which HOST cannot issue (R66). -/
inductive Instr
  /-- `NEW pol` (R116). `pol` is the raw two-bit field `POL`: code `11` matches the row and faults BAD_POLICY (R64). -/
  | new (pol : BitVec 2)
  /-- `WRITE r, g, b` (R117). -/
  | write (r g b : Channel)
  /-- `END_FRAME` (R120). -/
  | endFrame
  /-- `DRIVE_HIGH` (R103). -/
  | driveHigh
  /-- `DRIVE_LOW` (R104). -/
  | driveLow
  /-- `DELAY_LONG`, alias `DELAY_800` (R91). -/
  | delayLong
  /-- `DELAY_SHORT`, alias `DELAY_400` (R92). -/
  | delayShort
  /-- `DELAY_TRIM`, alias `DELAY_50` (R93). -/
  | delayTrim
  /-- `HOLD_LATCH` (R94). -/
  | holdLatch
deriving DecidableEq, Repr

/-- Format H: the commands HOST may issue (R56); the other rows are format M (R57). -/
def Instr.isCommand : Instr → Bool
  | .new _ => true
  | .write _ _ _ => true
  | .endFrame => true
  | .driveHigh => false
  | .driveLow => false
  | .delayLong => false
  | .delayShort => false
  | .delayTrim => false
  | .holdLatch => false

end Sys2Proof
end

