-- ==== Sys2Proof/Machine/State.lean ====
section
/-!
DEFINITION. The machine's state: every element of 10_state.md's reset table (R38), the two recordings of the pin the spec
names (TRACE R35, the micro-op trace R75 and R168), HOST's own state (its command stream and its coming steps), and one
field of the model's own (`draws`, the counter behind the free values of R96). The reset state, and the reasons a step
stops. The block has no memory (20_memory.md R40), so there is no memory field.
-/
namespace Sys2Proof.Machine

/-- A level the block can drive (R11, R35). -/
inductive Level
  | low
  | high
deriving DecidableEq, Repr

/-- `PIN`: the level the block last drove, or `UNKNOWN` before the first drive after reset (R26). The
draw R26 reads `UNKNOWN` as is an argument of the wire's waveform (`waveDrawnAt`, log entry 13). -/
inductive Pin
  | low
  | high
  | unknown
deriving DecidableEq, Repr

/-- `ENG_STATE` (R25). The codes 5 to 7 are never held and have no constructor. -/
inductive EngState
  | unbound
  | idle
  | emitting
  | latching
  | faulted
deriving DecidableEq, Repr

/-- One event of `TRACE`: a drive of `level` at `time` (R35). -/
structure PinEvent where
  time : Ns
  level : Level
deriving DecidableEq, Repr

/-- Who moves next, where it is not the default. HOST's steps are `gap` and `issue` (R115 a, b) and `stall` (R162);
`microOp` asks for one step of ENGINE, and stands before a `stall` or a `reset` to say between which two micro-ops it
lands (a `stall` needs a micro-op before it, log entry 10); `reset` is the platform's reset event (R171, R173). With nothing
listed HOST issues its stream's words with gap 0 and is never interrupted (log entry 6). -/
inductive Move
  | gap (g : Ns)
  | issue
  | microOp
  | stall (d : Ns)
  | reset
deriving DecidableEq, Repr

/-- The state of the machine. -/
structure State where
  /-- `ENG_STATE`, 3 bits (R25). -/
  engState : EngState
  /-- `BOUND`, 1 bit (R24). -/
  bound : Bool
  /-- `POLICY`, 2 bits, `none` before `NEW` (R23, in these words). -/
  policy : Option Policy
  /-- `PIN` (R26). -/
  pin : Pin
  /-- `SEQ`, 24 bits (R27). Outside EMITTING no rule reads it; it keeps the last sequence (DESIGN CHOICE, log entry 19). -/
  seq : ColourWord
  /-- `BIT_IDX`, 5 bits, 0 to 24 (R28). -/
  bitIdx : BitVec 5
  /-- `PHASE`, 3 bits, 0 to 4 (R29). -/
  phase : BitVec 3
  /-- `FAULT_CODE`, 8 bits (R30). -/
  faultCode : FaultCode
  /-- `TV`, 1 bit (R31). -/
  tv : Bool
  /-- `t`, model time in ns (R34). -/
  t : Ns
  /-- `TRACE`, the pin drive events in order (R35). -/
  trace : List PinEvent
  /-- The micro-op trace: the format M words of the micro-ops ENGINE performed, in order (R75, R168).
  DESIGN CHOICE to hold it in the state (log entry 14). -/
  microTrace : List Word
  /-- `HOST_IDX`, HOST's position in its stream (R22). -/
  hostIdx : Nat
  /-- HOST's command stream (R22, R115): an input no step can change (R53). -/
  stream : List Word
  /-- The coming steps of HOST and the platform that are not the default, oldest first. -/
  schedule : List Move
  /-- The model's own: how many delay primitives have run, so that each execution has a draw of its own (R96). -/
  draws : Nat
deriving DecidableEq, Repr

/-- The machine right after reset (R38, R171): each element at the value R38 gives. SEQ, BIT_IDX and PHASE have no value
there, and hold zero (DESIGN CHOICE, log entry 1). HOST has no command yet and nothing is scheduled (log entry 7). -/
def State.reset : State where
  engState := .unbound
  bound := false
  policy := none
  pin := .unknown
  seq := 0
  bitIdx := 0
  phase := 0
  faultCode := .noFault
  tv := false
  t := 0
  trace := []
  microTrace := []
  hostIdx := 0
  stream := []
  schedule := []
  draws := 0

/-- Why no step can be taken. A command fault of the block is none of these: it is a next state in FAULTED (R154). -/
inductive Fault
  /-- Raised by an `issue` when HOST's stream holds no further word: the run has ended (R134) and no agent has a step.
  Safe: the machine stops where the spec says a run ends (log entry 3). -/
  | streamExhausted
  /-- Raised by ENGINE's step when the position (ENG_STATE, BIT_IDX, PHASE) selects no micro-op: BIT_IDX above 23 or PHASE
  above 4 in EMITTING, PHASE above 1 in LATCHING. No run reaches such a state (`State.Inv`, Safety.lean), and no rule says
  what a step does there. Safe: the machine stops (log entry 11). -/
  | noMicroOp
  /-- Raised by a `WRITE` in a state with BOUND = 1 and no POLICY. No run reaches such a state (`State.Inv`), and no rule
  says what a `WRITE` does there. Safe: the machine stops (log entry 11). -/
  | noPolicy
deriving DecidableEq, Repr

/-- Why an instruction or an input has no meaning. -/
inductive Refusal
  /-- Raised by `exec` for an instruction with no meaning yet; no arm of this model answers it. Safe. -/
  | notModelled (mnemonic : String)
  /-- Raised by the transcriber for an input that is not one 32-bit word (R13, R46), never by a step. Safe. -/
  | notAWord
deriving DecidableEq, Repr

end Sys2Proof.Machine
end

