-- ==== Sys2Proof/Machine/Flags.lean ====
section
/-!
DEFINITION. The two flags the block has (10_state.md R32): the sticky timing-violation flag TV (R31) and FAULT_CODE, which
keeps the first command fault (R30). No command reads a flag, and none clears one (60_exceptions.md R157).
-/
namespace Sys2Proof.Machine

/-- `TV <- 1` (R31, R163). Nothing but reset clears it. -/
def State.setTv (s : State) : State :=
  { s with tv := true }

/-- `if FAULT_CODE = 0x00: FAULT_CODE <- code` (R154): later faults do not overwrite the first (R30). -/
def State.recordFault (c : FaultCode) (s : State) : State :=
  if s.faultCode = .noFault then { s with faultCode := c } else s

end Sys2Proof.Machine
end

