-- ==== Sys2Proof/Machine/Ops.lean ====
section
/-!
DEFINITION. The named operations on the state: model time and the pin (00_scope.md R11), taking a command (43 R115),
taking a command fault (60 R154), the three acceptances (43 R116, R117, R120), a stall (60 R163), the recording of a
micro-op (30 R75), and reset (70 R171). There is no return from a command fault (60 R157): only reset leaves FAULTED.
-/
namespace Sys2Proof.Machine

/-- ENGINE runs a command: ENG_STATE is EMITTING or LATCHING. HOST is held (R115). -/
def State.running (s : State) : Bool :=
  match s.engState with
  | .unbound => false
  | .idle => false
  | .emitting => true
  | .latching => true
  | .faulted => false

/-- ENGINE is between two micro-ops (R97, R162; log entry 10): it runs a command, so one is still to come, and one has been
performed since reset, of this command or of one before it. A position past the command's start (R117, R120) shows one; so
does a TRACE that is not empty, since the first micro-op of every command is a drive (R129). -/
def State.betweenMicroOps (s : State) : Bool :=
  match s.engState with
  | .unbound => false
  | .idle => false
  | .emitting => decide (s.bitIdx ≠ 0 ∨ s.phase ≠ 0 ∨ s.trace ≠ [])
  | .latching => decide (s.phase ≠ 0 ∨ s.trace ≠ [])
  | .faulted => false

/-- `Advance(d)`: model time and nothing else (R11, R34). -/
def State.advance (d : Ns) (s : State) : State :=
  { s with t := s.t + d }

/-- The level a drive leaves on the pin. -/
def Level.toPin : Level → Pin
  | .low => .low
  | .high => .high

/-- `PinDrive(level)`: the pin takes the level and TRACE gets the event (R11), also where the level does not change
(R35). -/
def State.pinDrive (l : Level) (s : State) : State :=
  { s with pin := l.toPin, trace := s.trace ++ [⟨s.t, l⟩] }

/-- The next draw is a fresh one (R96: each execution draws independently). -/
def State.nextDraw (s : State) : State :=
  { s with draws := s.draws + 1 }

/-- ENGINE takes the word at HOST_IDX from the stream (R115). -/
def State.takeWord (s : State) : State :=
  { s with hostIdx := s.hostIdx + 1 }

/-- TAKING A COMMAND FAULT, `raise Fault(code)` (R154): the code is kept if it is the first, and ENGINE is FAULTED until
reset. Nothing else changes; there is no trap entry (R156). -/
def State.raiseFault (c : FaultCode) (s : State) : State :=
  { s.recordFault c with engState := .faulted }

/-- `NEW`'s acceptance (R116). -/
def State.bindPolicy (pol : Policy) (s : State) : State :=
  { s with policy := some pol, bound := true, engState := .idle }

/-- `WRITE`'s acceptance (R117), with the 24-bit sequence it is to emit. -/
def State.startWrite (bits : ColourWord) (s : State) : State :=
  { s with seq := bits, bitIdx := 0, phase := 0, engState := .emitting }

/-- `END_FRAME`'s acceptance (R120). SEQ and BIT_IDX, which no rule reads in LATCHING, stay (DESIGN CHOICE, log entry 19). -/
def State.startLatch (s : State) : State :=
  { s with engState := .latching, phase := 0 }

/-- The effect of `stall(d)` (R162, R163): time passes; in EMITTING it is a timing violation, in LATCHING it is not. -/
def State.stallFor (d : Ns) (s : State) : State :=
  match s.engState with
  | .emitting => (s.advance d).setTv
  | .latching => s.advance d
  | .unbound => s.advance d
  | .idle => s.advance d
  | .faulted => s.advance d

/-- A performed micro-op's word joins the micro-op trace (R75). -/
def State.recordMicroOp (w : Word) (s : State) : State :=
  { s with microTrace := s.microTrace ++ [w] }

/-- Reset (R171): every element to its value of R38, whatever ENGINE was doing (R173). HOST's stream, the coming steps and
the draws are not elements of R38: they stay (log entry 7). SEQ, BIT_IDX and PHASE return to the values of log entry 1, and the micro-op
trace is emptied (log entry 14). HOST_IDX returns to 0, the start of the stream (R22). -/
def State.resetEvent (s : State) : State :=
  { State.reset with stream := s.stream, schedule := s.schedule, draws := s.draws }

end Sys2Proof.Machine
end

