-- ==== Sys2Proof/Machine/Delay.lean ====
section
/-!
DEFINITION. The delay primitives and the latch hold (41_delay_primitives.md R90 to R94). Each one advances model time by
its duration and does nothing else; the sequencer then advances PHASE (R90, R128; Machine/Sequencer.lean).
-/
namespace Sys2Proof.Machine

/-- One execution of a delay primitive takes its own draw `D_x` (R90, R96). -/
def delayFor {nominal : Ns} (d : DelayPrimitive nominal) (s : State) : State :=
  (s.advance (d.draw s.draws)).nextDraw

/-- `DELAY_LONG` on an instance `p`: `Advance(D_LONG)` (R91). -/
def delayLongOn (p : Params) (s : State) : Host.Outcome State Fault Refusal :=
  .next (delayFor p.long s)

/-- `DELAY_SHORT` on an instance `p`: `Advance(D_SHORT)` (R92). -/
def delayShortOn (p : Params) (s : State) : Host.Outcome State Fault Refusal :=
  .next (delayFor p.short s)

/-- `DELAY_TRIM` on an instance `p`: `Advance(D_TRIM)` (R93). -/
def delayTrimOn (p : Params) (s : State) : Host.Outcome State Fault Refusal :=
  .next (delayFor p.trim s)

/-- `HOLD_LATCH` on an instance `p`: `Advance(D_LATCH)` (R94). -/
def holdLatchOn (p : Params) (s : State) : Host.Outcome State Fault Refusal :=
  .next (s.advance p.dLatch)

/-- `DELAY_LONG` (R91). -/
def execDelayLong (s : State) : Host.Outcome State Fault Refusal := delayLongOn Config.params s

/-- `DELAY_SHORT` (R92). -/
def execDelayShort (s : State) : Host.Outcome State Fault Refusal := delayShortOn Config.params s

/-- `DELAY_TRIM` (R93). -/
def execDelayTrim (s : State) : Host.Outcome State Fault Refusal := delayTrimOn Config.params s

/-- `HOLD_LATCH` (R94). -/
def execHoldLatch (s : State) : Host.Outcome State Fault Refusal := holdLatchOn Config.params s

end Sys2Proof.Machine
end

