-- ==== Sys2Proof/Machine/Emitter.lean ====
section
/-!
DEFINITION. The two pin drives (42_pulse_emitter.md R103, R104), the block's whole use of the pin (R102).
-/
namespace Sys2Proof.Machine

/-- A drive: the event falls at the present time and the drive then takes `D_DRV` (R103, R104). -/
def drive (p : Params) (l : Level) (s : State) : State :=
  (s.pinDrive l).advance p.dDrv

/-- `DRIVE_HIGH` on an instance `p` (R103). -/
def driveHighOn (p : Params) (s : State) : Host.Outcome State Fault Refusal :=
  .next (drive p .high s)

/-- `DRIVE_LOW` on an instance `p` (R104). -/
def driveLowOn (p : Params) (s : State) : Host.Outcome State Fault Refusal :=
  .next (drive p .low s)

/-- `DRIVE_HIGH` (R103). -/
def execDriveHigh (s : State) : Host.Outcome State Fault Refusal := driveHighOn Config.params s

/-- `DRIVE_LOW` (R104). -/
def execDriveLow (s : State) : Host.Outcome State Fault Refusal := driveLowOn Config.params s

end Sys2Proof.Machine
end

