-- ==== Sys2Proof/WellFormed.lean ====
section
/-!
DEFINITION. Which instructions are well formed. The only operand with an illegal value is `NEW`'s policy code (R60, R86):
every `WRITE` operand is legal (R61), and the other rows have no operand (R62, R63).
-/
namespace Sys2Proof

/-- Whether a policy code names a policy this instance implements (R60): `00` always; `01` and `10` exactly when
`HAS_EXTRA_POLICIES`; `11` never. -/
def policyCodeLegal (hasExtra : Bool) (pol : BitVec 2) : Bool :=
  pol == 0 || (hasExtra && pol != 3)

/-- Well-formedness of an instruction on an instance whose parameter `HAS_EXTRA_POLICIES` is `hasExtra`. -/
def Instr.wf (hasExtra : Bool) : Instr → Bool
  | .new pol => policyCodeLegal hasExtra pol
  | .write _ _ _ => true
  | .endFrame => true
  | .driveHigh => true
  | .driveLow => true
  | .delayLong => true
  | .delayShort => true
  | .delayTrim => true
  | .holdLatch => true

end Sys2Proof
end

