-- ==== Sys2Proof/Decode.lean ====
section
/-!
DEFINITION. The encodings of 30_encoding.md. `decode` reads a word by the opcode map (R64): it knows all nine rows.
`decodeCommand` is the command port (R71): it knows the three format H rows and answers a command fault for every other
word; `portCommand` is all of it but the check of `NEW`'s policy code, which `NEW`'s own meaning makes. `encode` is written from the same map. `opcodeRows` is the map itself, match and mask.
-/
namespace Sys2Proof

/-- `OPC = w[31:24]` (R56, R58). -/
def opcOf (w : Word) : BitVec 8 := w.extractLsb' 24 8

/-- `ARG = w[23:0]` (R56). -/
def argOf (w : Word) : BitVec 24 := w.extractLsb' 0 24

/-- `POL = w[1:0]` (R59). -/
def polOf (w : Word) : BitVec 2 := w.extractLsb' 0 2

/-- `NEW`'s reserved field `w[23:2]` (R59). -/
def newReservedOf (w : Word) : BitVec 22 := w.extractLsb' 2 22

/-- `R = w[23:16]` (R61). -/
def redOf (w : Word) : Channel := w.extractLsb' 16 8

/-- `G = w[15:8]` (R61). -/
def greenOf (w : Word) : Channel := w.extractLsb' 8 8

/-- `B = w[7:0]` (R61). -/
def blueOf (w : Word) : Channel := w.extractLsb' 0 8

/-- The row with no operand `i`, where the whole `ARG` field is zero; else the fault `c`. -/
def bareRow (w : Word) (i : Instr) (c : FaultCode) : Except FaultCode Instr :=
  if argOf w = 0 then .ok i else .error c

/-- The instruction a word stands for by the opcode map (R64), or why it stands for none: a word of no row is
ILLEGAL_OPCODE (R65), a `NEW` or `END_FRAME` with a reserved bit set is RESERVED_NONZERO (R67). A micro-op word has
`w[23:0] = 0` (R63); with any other operand it is a word of no row. -/
def decode (w : Word) : Except FaultCode Instr :=
  if opcOf w = 0x01 then
    if newReservedOf w = 0 then .ok (.new (polOf w)) else .error .reservedNonzero
  else if opcOf w = 0x02 then .ok (.write (redOf w) (greenOf w) (blueOf w))
  else if opcOf w = 0x03 then bareRow w .endFrame .reservedNonzero
  else if opcOf w = 0x10 then bareRow w .driveHigh .illegalOpcode
  else if opcOf w = 0x11 then bareRow w .driveLow .illegalOpcode
  else if opcOf w = 0x20 then bareRow w .delayLong .illegalOpcode
  else if opcOf w = 0x21 then bareRow w .delayShort .illegalOpcode
  else if opcOf w = 0x22 then bareRow w .delayTrim .illegalOpcode
  else if opcOf w = 0x23 then bareRow w .holdLatch .illegalOpcode
  else .error .illegalOpcode

/-- The policy a two-bit code names on this instance (R60, R86), or none. -/
def policyOf (hasExtra : Bool) (pol : BitVec 2) : Option Policy :=
  if pol = 0 then some .brg
  else if pol = 1 then (if hasExtra then some .rgb else none)
  else if pol = 2 then (if hasExtra then some .grb else none)
  else none

/-- The commands the port knows, by the opcode map alone: a micro-op word is ILLEGAL_OPCODE there (R65, R66). -/
def portCommand (w : Word) : Except FaultCode Instr :=
  match decode w with
  | .error c => .error c
  | .ok i => if i.isCommand then .ok i else .error .illegalOpcode

/-- Whether a command's operand is one this instance implements: only `NEW`'s policy code can fail (R86). -/
def operandImplemented (hasExtra : Bool) : Instr → Bool
  | .new pol => (policyOf hasExtra pol).isSome
  | .write _ _ _ => true
  | .endFrame => true
  | .driveHigh => true
  | .driveLow => true
  | .delayLong => true
  | .delayShort => true
  | .delayTrim => true
  | .holdLatch => true

/-- The command-port decoder (R71): total on 32-bit words; every word is one command or one fault. `NEW` with a code that
names no implemented policy is BAD_POLICY (R86). -/
def decodeCommand (hasExtra : Bool) (w : Word) : Except FaultCode Instr :=
  match portCommand w with
  | .error c => .error c
  | .ok i => if operandImplemented hasExtra i then .ok i else .error .badPolicy

/-- The word of an instruction (R59, R61, R62, R63, R64). -/
def encode : Instr → Word
  | .new pol => 0x01#8 ++ (0#22 ++ pol)
  | .write r g b => 0x02#8 ++ (r ++ g ++ b)
  | .endFrame => 0x03#8 ++ 0#24
  | .driveHigh => 0x10#8 ++ 0#24
  | .driveLow => 0x11#8 ++ 0#24
  | .delayLong => 0x20#8 ++ 0#24
  | .delayShort => 0x21#8 ++ 0#24
  | .delayTrim => 0x22#8 ++ 0#24
  | .holdLatch => 0x23#8 ++ 0#24

/-- One row of the opcode map: a word `w` matches it when `(w AND mask) = matchBits` (R64). -/
structure OpcodeRow where
  matchBits : Word
  mask : Word
deriving DecidableEq, Repr

/-- The row of the opcode map an instruction belongs to (R64). -/
def opcodeRowOf : Instr → OpcodeRow
  | .new _ => ⟨0x01000000#32, 0xFFFFFFFC#32⟩
  | .write _ _ _ => ⟨0x02000000#32, 0xFF000000#32⟩
  | .endFrame => ⟨0x03000000#32, 0xFFFFFFFF#32⟩
  | .driveHigh => ⟨0x10000000#32, 0xFFFFFFFF#32⟩
  | .driveLow => ⟨0x11000000#32, 0xFFFFFFFF#32⟩
  | .delayLong => ⟨0x20000000#32, 0xFFFFFFFF#32⟩
  | .delayShort => ⟨0x21000000#32, 0xFFFFFFFF#32⟩
  | .delayTrim => ⟨0x22000000#32, 0xFFFFFFFF#32⟩
  | .holdLatch => ⟨0x23000000#32, 0xFFFFFFFF#32⟩

/-- The opcode map's nine rows in the table's order (R64). -/
def opcodeRows : List OpcodeRow :=
  [.new 0, .write 0 0 0, .endFrame, .driveHigh, .driveLow, .delayLong, .delayShort, .delayTrim, .holdLatch].map opcodeRowOf

/-- Whether a word matches a row (R64). -/
def OpcodeRow.matchesWord (row : OpcodeRow) (w : Word) : Bool :=
  w &&& row.mask == row.matchBits

/-- The instruction the decoder reads from the table's word `w` of `nbits` bits. Every word of this hardware is exactly
32 bits (R69), and a shorter transfer is no word (R46). -/
def decodeTableWord (nbits w : Nat) : Option Instr :=
  if nbits = 32 ∧ w < 2 ^ 32 then
    match decode (BitVec.ofNat 32 w) with
    | .ok i => some i
    | .error _ => none
  else none

end Sys2Proof
end

