-- ==== Sys2Proof/Machine/Operands.lean ====
section
/-!
DEFINITION. The operands of the commands: the colour a `WRITE` carries (40_color_policy.md R76) and what the block makes
of it, the 24-bit sequence of the channel-order policy (R78 to R82).
-/
namespace Sys2Proof.Machine

/-- The colour of a `WRITE`'s operands, as they are: no extension, scaling or check (R61, R76). -/
def colourOf (r g b : Channel) : Colour := ⟨r, g, b⟩

/-- `BITS_FOR(pol, c)` as the number `S` (R10, R78): BRG is `{G, R, B}` (R79), RGB `{B, G, R}` (R80), GRB `{B, R, G}`
(R81), the first-named channel in the low bits, least significant bit first in each channel (R87). -/
def bitsFor (pol : Policy) (c : Colour) : ColourWord :=
  match pol with
  | .brg => c.g ++ c.r ++ c.b
  | .rgb => c.b ++ c.g ++ c.r
  | .grb => c.b ++ c.r ++ c.g

/-- A 24-bit word as the sequence of its bits, element 0 first: `seq[i] = S[i]` (R10). -/
def sequenceOf (s : ColourWord) : List Bool :=
  (List.range Config.nBits).map s.getLsbD

end Sys2Proof.Machine
end

