-- ==== Sys2Proof/Machine/Writer.lean ====
section
/-!
DEFINITION. The three host commands (43_writer_engine.md R115 to R123): each meaning is HOST's `issue` of that command,
which takes the word from the stream, makes the state checks of 60_exceptions.md R153 and then accepts the command.
-/
namespace Sys2Proof.Machine

/-- HOST's `issue` of a decoded command (R115), whose checks and acceptance are `accept`. While ENGINE runs a command HOST
is held: nothing is taken and HOST waits (R115, R13; DESIGN CHOICE, log entry 2). In FAULTED the word is taken and ignored (R131, R155). -/
def issueCommand (s : State) (accept : State → Host.Outcome State Fault Refusal) : Host.Outcome State Fault Refusal :=
  match s.engState with
  | .emitting => .next s
  | .latching => .next s
  | .faulted => .next s.takeWord
  | .unbound => accept s.takeWord
  | .idle => accept s.takeWord

/-- `NEW pol` on an instance `p`: BAD_POLICY before ALREADY_BOUND (R153 steps 1 and 2), then R116. -/
def newOn (p : Params) (pol : BitVec 2) (s : State) : Host.Outcome State Fault Refusal :=
  issueCommand s fun u => .next <|
    match policyOf p.hasExtraPolicies pol with
    | none => u.raiseFault .badPolicy
    | some q => if u.bound then u.raiseFault .alreadyBound else u.bindPolicy q

/-- `WRITE r, g, b`: NOT_BOUND (R153 step 3), then R117. -/
def writeOn (r g b : Channel) (s : State) : Host.Outcome State Fault Refusal :=
  issueCommand s fun u =>
    if u.bound then
      match u.policy with
      | some q => .next (u.startWrite (bitsFor q (colourOf r g b)))
      | none => .fault .noPolicy
    else .next (u.raiseFault .notBound)

/-- `END_FRAME`: NOT_BOUND (R153 step 4), then R120. -/
def endFrameOn (s : State) : Host.Outcome State Fault Refusal :=
  issueCommand s fun u => .next (if u.bound then u.startLatch else u.raiseFault .notBound)

/-- `NEW` (R116). -/
def execNew (pol : BitVec 2) (s : State) : Host.Outcome State Fault Refusal := newOn Config.params pol s

/-- `WRITE` (R117). -/
def execWrite (r g b : Channel) (s : State) : Host.Outcome State Fault Refusal := writeOn r g b s

/-- `END_FRAME` (R120). -/
def execEndFrame (s : State) : Host.Outcome State Fault Refusal := endFrameOn s

end Sys2Proof.Machine
end

