-- ==== Sys2Proof/Machine/Dispatch.lean ====
section
/-!
DEFINITION. One arm per row of the opcode map (30_encoding.md R64), each the meaning of its row. A command's meaning is
HOST's `issue` of it (R115); a micro-op's is what ENGINE performs, before the sequencer advances its position (R128, log
entry 12).
-/
namespace Sys2Proof.Machine

def exec (i : Instr) (s : State) : Host.Outcome State Fault Refusal :=
  match i with
  | .new pol => Sys2Proof.Machine.execNew pol s
  | .write r g b => Sys2Proof.Machine.execWrite r g b s
  | .endFrame => Sys2Proof.Machine.execEndFrame s
  | .driveHigh => Sys2Proof.Machine.execDriveHigh s
  | .driveLow => Sys2Proof.Machine.execDriveLow s
  | .delayLong => Sys2Proof.Machine.execDelayLong s
  | .delayShort => Sys2Proof.Machine.execDelayShort s
  | .delayTrim => Sys2Proof.Machine.execDelayTrim s
  | .holdLatch => Sys2Proof.Machine.execHoldLatch s

end Sys2Proof.Machine
end

