-- ==== Sys2Proof/Machine/Sequencer.lean ====
section
/-!
DEFINITION. ENGINE's sequencer: the micro-programs (42_pulse_emitter.md R106, R107, R112; 43_writer_engine.md R120, R129),
the micro-op its position selects, and how the position advances (R118, R119, R120, R128).
-/
namespace Sys2Proof.Machine

/-- `PULSE1` (R106). -/
def pulse1 : List Instr := [.driveHigh, .delayLong, .driveLow, .delayShort, .delayTrim]

/-- `PULSE0` (R107). -/
def pulse0 : List Instr := [.driveHigh, .delayShort, .driveLow, .delayLong, .delayTrim]

/-- The pulse for one sequence element (R112). -/
def pulseFor (b : Bool) : List Instr := if b then pulse1 else pulse0

/-- `END_FRAME`'s micro-program (R120). -/
def latchProgram : List Instr := [.driveLow, .holdLatch]

/-- `WRITE`'s complete micro-op list for a sequence (R129). -/
def writeProgram (seq : ColourWord) : List Instr :=
  (List.range Config.nBits).flatMap fun i => pulseFor (seq.getLsbD i)

/-- The micro-op the position (ENG_STATE, BIT_IDX, PHASE) selects (R118, R120, R128). Outside EMITTING and LATCHING ENGINE
has no step. -/
def State.selectedMicroOp (s : State) : Option Instr :=
  match s.engState with
  | .emitting =>
    if s.bitIdx.toNat < Config.nBits then (pulseFor (s.seq.getLsbD s.bitIdx.toNat))[s.phase.toNat]? else none
  | .latching => latchProgram[s.phase.toNat]?
  | .unbound => none
  | .idle => none
  | .faulted => none

/-- EMITTING's advance (R118): the next micro-op of the pulse, the next pulse, or the end of the `WRITE` (R119).
SEQ keeps the completed `WRITE`'s sequence, and BIT_IDX its 24, although the block keeps no colour then (R77) and no rule
reads them (R27, R28): DESIGN CHOICE, log entry 19. -/
def State.advanceEmitting (s : State) : State :=
  if s.phase.toNat < 4 then { s with phase := s.phase + 1 }
  else if s.bitIdx.toNat + 1 = Config.nBits then { s with phase := 0, bitIdx := s.bitIdx + 1, engState := .idle }
  else { s with phase := 0, bitIdx := s.bitIdx + 1 }

/-- LATCHING's advance (R120): from the drive to the hold, then IDLE (R123). What no rule reads in IDLE stays
(log entry 19). -/
def State.advanceLatching (s : State) : State :=
  if s.phase.toNat < 1 then { s with phase := s.phase + 1 } else { s with phase := 0, engState := .idle }

/-- The sequencer advances its position (R128). -/
def State.advancePosition (s : State) : State :=
  match s.engState with
  | .emitting => s.advanceEmitting
  | .latching => s.advanceLatching
  | .unbound => s
  | .idle => s
  | .faulted => s

end Sys2Proof.Machine
end

