-- ==== Sys2Proof/Machine/Engine.lean ====
section
/-!
DEFINITION. The steps of the agents (10_state.md R20, 43_writer_engine.md R115, R128; 60_exceptions.md R162): which agent
moves next, HOST's `issue`, `gap` and `stall`, ENGINE's step, and reset. `machineStep` is the step of an instance with
parameters `p` whose instructions mean `run`; Machine/Step.lean takes it at the machine's own parameters and `exec`, and
`stepOn p` takes it at any parameters. Also how the table's words are placed to be fetched.
-/
namespace Sys2Proof.Machine

/-- The meanings of the nine rows on an instance with parameters `p`; `exec` is this at `Config.params`
(`exec_eq_execOn`, Laws/Engine.lean). -/
def execOn (p : Params) (i : Instr) (s : State) : Host.Outcome State Fault Refusal :=
  match i with
  | .new pol => newOn p pol s
  | .write r g b => writeOn r g b s
  | .endFrame => endFrameOn s
  | .driveHigh => driveHighOn p s
  | .driveLow => driveLowOn p s
  | .delayLong => delayLongOn p s
  | .delayShort => delayShortOn p s
  | .delayTrim => delayTrimOn p s
  | .holdLatch => holdLatchOn p s

/-- The word HOST issues next: the one at HOST_IDX (R22, R115). -/
def State.nextWord (s : State) : Option Word := s.stream[s.hostIdx]?

/-- Whether a scheduled move is a step the rules have at all, now or once ENGINE is done: a gap is not negative (R115), a
stall is positive, needs PREEMPTION and happens only inside a command between two micro-ops (R97, R162; log entry 10), and
ENGINE moves only in EMITTING and LATCHING (R128). HOST's `gap` and `issue` stay possible while ENGINE runs: HOST is only
held (R115). -/
def moveIsPossible (p : Params) (s : State) : Move → Bool
  | .gap g => decide (0 ≤ g)
  | .issue => true
  | .microOp => s.running
  | .stall d => s.betweenMicroOps && p.preemption && decide (0 < d)
  | .reset => true

/-- The state with the scheduled moves that the rules do not have dropped from the front (log entry 6). -/
def State.settle (p : Params) (s : State) : State :=
  { s with schedule := s.schedule.dropWhile fun m => !(moveIsPossible p s m) }

/-- What ENGINE does once its micro-op is performed: the micro-op is recorded (R75) and the position advances (R128). -/
def State.afterMicroOp (i : Instr) (s : State) : State :=
  (s.recordMicroOp (encode i)).advancePosition

/-- ENGINE's step (R128): it performs the micro-op the position selects, then advances the position. -/
def engineStep (run : Instr → State → Host.Outcome State Fault Refusal) (s : State) :
    Host.Outcome State Fault Refusal :=
  match s.selectedMicroOp with
  | none => .fault .noMicroOp
  | some i =>
    match run i s with
    | .next u => .next (u.afterMicroOp i)
    | .fault f => .fault f
    | .refused r => .refused r

/-- HOST's `issue(w)` outside EMITTING and LATCHING (R115, R153, R155). In FAULTED the word is taken unread. Otherwise a
word that is no command raises its fault, and a command's own checks and acceptance follow. `NEW`'s policy check, the last
of the decoder's (R71), stands in `NEW`'s meaning before its other check, so the order is R153's: this is the decoder of R71
followed by R153's steps 2 to 5 (`issueWord_eq_decodeCommand`, Laws/Engine.lean; log entry 18). -/
def issueWord (run : Instr → State → Host.Outcome State Fault Refusal) (w : Word) (s : State) :
    Host.Outcome State Fault Refusal :=
  if s.engState = .faulted then .next s.takeWord
  else
    match portCommand w with
    | .error c => .next (s.takeWord.raiseFault c)
    | .ok i => run i s

/-- HOST's `issue` step: the word at HOST_IDX, or the end of the run where there is none (R134). -/
def issueStep (run : Instr → State → Host.Outcome State Fault Refusal) (s : State) :
    Host.Outcome State Fault Refusal :=
  match s.nextWord with
  | none => .fault .streamExhausted
  | some w => issueWord run w s

/-- A step while ENGINE runs a command, its moves settled: a reset or a stall that is due, else ENGINE. A `gap` or an
`issue` of HOST's waits (R115). -/
def runningStep (run : Instr → State → Host.Outcome State Fault Refusal) (s : State) :
    Host.Outcome State Fault Refusal :=
  match s.schedule with
  | [] => engineStep run s
  | .gap _ :: _ => engineStep run s
  | .issue :: _ => engineStep run s
  | .microOp :: rest => engineStep run { s with schedule := rest }
  | .stall d :: rest => .next (State.stallFor d { s with schedule := rest })
  | .reset :: rest => .next (State.resetEvent { s with schedule := rest })

/-- A step while ENGINE runs no command, its moves settled: HOST's gap or issue, or a reset. A settled schedule does not
begin with `microOp` or `stall` here. -/
def restingStep (run : Instr → State → Host.Outcome State Fault Refusal) (s : State) :
    Host.Outcome State Fault Refusal :=
  match s.schedule with
  | [] => issueStep run s
  | .gap g :: rest => .next (State.advance g { s with schedule := rest })
  | .issue :: rest => issueStep run { s with schedule := rest }
  | .microOp :: rest => issueStep run { s with schedule := rest }
  | .stall _ :: rest => issueStep run { s with schedule := rest }
  | .reset :: rest => .next (State.resetEvent { s with schedule := rest })

/-- One step of the machine: the agents never step at once (R20). -/
def machineStep (p : Params) (run : Instr → State → Host.Outcome State Fault Refusal) (s : State) :
    Host.Outcome State Fault Refusal :=
  if s.running then runningStep run (s.settle p) else restingStep run (s.settle p)

/-- The step of an instance with parameters `p`. `step` is this at `Config.params` (`step_eq_stepOn`, Laws/Engine.lean). -/
def stepOn (p : Params) (s : State) : Host.Outcome State Fault Refusal :=
  machineStep p (execOn p) s

/-- `k` steps of an instance, stopping at the first stop. -/
def runOn (p : Params) : Nat → State → Host.Outcome State Fault Refusal
  | 0, s => .next s
  | k + 1, s =>
    match stepOn p s with
    | .next u => runOn p k u
    | .fault f => .fault f
    | .refused r => .refused r

/-! ## Programs and the placing of words -/

/-- The machine after reset with HOST's stream `ws` and the coming steps `moves`: how a program is given to the machine
(log entry 7). -/
def State.withProgram (ws : List Word) (moves : List Move) : State :=
  { State.reset with stream := ws, schedule := moves }

/-- The transcriber (R13, R46): an input that is not one 32-bit word is refused by name. -/
def transcribe (nbits w : Nat) : Except Refusal Word :=
  if nbits = 32 ∧ w < 2 ^ 32 then .ok (BitVec.ofNat 32 w) else .error .notAWord

/-- The stream with `w` as its word number `n`; words not given before it are zero. -/
def placeAt (l : List Word) (n : Nat) (w : Word) : List Word :=
  l.take n ++ List.replicate (n - l.length) 0 ++ w :: l.drop (n + 1)

/-- A position of the sequencer that selects a micro-op, for placing it: ENG_STATE, SEQ, BIT_IDX and PHASE. -/
def positionOf : Instr → Option (EngState × ColourWord × BitVec 5 × BitVec 3)
  | .new _ => none
  | .write _ _ _ => none
  | .endFrame => none
  | .driveHigh => some (.emitting, 0, 0, 0)
  | .driveLow => some (.emitting, 0, 0, 2)
  | .delayLong => some (.emitting, 1, 0, 1)
  | .delayShort => some (.emitting, 0, 0, 1)
  | .delayTrim => some (.emitting, 0, 0, 4)
  | .holdLatch => some (.latching, 0, 0, 1)

/-- A word placed on the command port, so that HOST's next step issues it. -/
def State.placeCommand (s : State) (w : Word) : State :=
  { s with
    stream := placeAt s.stream s.hostIdx w
    schedule := .issue :: s.schedule
    engState := if s.running then .idle else s.engState }

/-- The state with the table's word placed where the next step fetches (log entry 8): a micro-op is selected by the
sequencer's position, which is all that selects one; any other word stands at HOST_IDX of HOST's stream. -/
def State.placeTableWord (s : State) (nbits w : Nat) : State :=
  match transcribe nbits w with
  | .error _ => s
  | .ok word =>
    match decode word with
    | .error _ => s.placeCommand word
    | .ok i =>
      match positionOf i with
      | none => s.placeCommand word
      | some (e, q, n, ph) =>
        { s with engState := e, seq := q, bitIdx := n, phase := ph, schedule := .microOp :: s.schedule }

end Sys2Proof.Machine
end

