-- ==== Sys2Proof/Machine/Step.lean ====
section
/-!
DEFINITION. The machine's step: `machineStep` of Machine/Engine.lean at the machine's own parameters, with `exec` as the
meaning of every instruction (00_scope.md R13; 43_writer_engine.md R115, R128).
-/
namespace Sys2Proof.Machine

/-- One step: HOST's, ENGINE's, or a reset. -/
def step (s : State) : Host.Outcome State Fault Refusal :=
  machineStep Config.params exec s

/-- `s` with the table's word `w` where the next step fetches it. -/
def State.withFetchWord (s : State) (nbits w : Nat) : State :=
  s.placeTableWord nbits w

end Sys2Proof.Machine
end

