-- ==== Sys2Proof/Machine/Status.lean ====
section
/-!
DEFINITION. The STATUS view of 10_state.md R36: a packing of the state for traces and test vectors. HOST cannot read it and
no step reads it. The numeric codes are those of R23, R25, R36 and R152.
-/
namespace Sys2Proof.Machine

/-- ENG_STATE's codes (R25). -/
def engStateCode : EngState → BitVec 3
  | .unbound => 0
  | .idle => 1
  | .emitting => 2
  | .latching => 3
  | .faulted => 4

/-- POLICY's codes (R23, R60). -/
def policyCode : Policy → BitVec 2
  | .brg => 0
  | .rgb => 1
  | .grb => 2

/-- PIN's codes in STATUS (R36); code 3 is never held. -/
def pinCode : Pin → BitVec 2
  | .low => 0
  | .high => 1
  | .unknown => 2

/-- The command fault codes (R152). -/
def faultCodeOf : FaultCode → BitVec 8
  | .noFault => 0x00
  | .illegalOpcode => 0x01
  | .reservedNonzero => 0x02
  | .badPolicy => 0x03
  | .notBound => 0x04
  | .alreadyBound => 0x05

/-- STATUS's POLICY field: the policy's code, and 0 while BOUND = 0 (R36). -/
def State.policyField (s : State) : BitVec 2 :=
  match s.bound, s.policy with
  | true, some q => policyCode q
  | true, none => 0
  | false, _ => 0

/-- STATUS's BIT_IDX field: 0 outside EMITTING (R36). -/
def State.bitIdxField (s : State) : BitVec 5 :=
  if s.engState = .emitting then s.bitIdx else 0

/-- STATUS's PHASE field: 0 outside EMITTING and LATCHING (R36). -/
def State.phaseField (s : State) : BitVec 3 :=
  if s.running then s.phase else 0

/-- STATUS (R36): PHASE [31:29], BIT_IDX [28:24], FAULT_CODE [23:16], zeros [15:9], TV [8], PIN [7:6], POLICY [5:4],
BOUND [3], ENG_STATE [2:0]. -/
def State.status (s : State) : BitVec 32 :=
  s.phaseField ++ s.bitIdxField ++ faultCodeOf s.faultCode ++ 0#7 ++ BitVec.ofBool s.tv ++ pinCode s.pin ++
    s.policyField ++ BitVec.ofBool s.bound ++ engStateCode s.engState

end Sys2Proof.Machine
end

