-- ==== Sys2Proof/Machine/Assembler.lean ====
section
/-!
DEFINITION. The assembler syntax and the pseudo-instructions (30_encoding.md R70, R72, R73, R74): from a line of text to
the words it stands for. Text is a list of characters. HOST programs and micro-program listings are kept apart, since HOST
cannot issue a micro-op (R66, R74). What R70 leaves open of the text is log entry 16.
-/
namespace Sys2Proof.Machine

/-- Why a line is no line of the assembler (R70, R72, R73). -/
inductive AsmError
  /-- An operand of `WRITE` outside 0..255 (R70). -/
  | operandRange
  /-- `FRAME` with no colour, or `BLANK 0`: both need at least one (R72, R73). -/
  | emptyFrame
  /-- Not of the syntax of R70, R72 to R74. -/
  | badSyntax
deriving DecidableEq, Repr

/-- One line of a HOST program: the three commands (R70) and the pseudo-instructions of R72 and R73. -/
inductive AsmCommand
  | new (q : Policy)
  | write (r g b : Nat)
  | endFrame
  | frame (colours : List (Nat × Nat × Nat))
  | latch
  | wait
  | blank (n : Nat)
deriving DecidableEq, Repr

/-- `NEW q` encodes `0x01000000 | POL` (R70). -/
def asmNew (q : Policy) : Word := encode (.new (policyCode q))

/-- `WRITE r, g, b`, each operand in 0..255 (R70). -/
def asmWrite (r g b : Nat) : Except AsmError Word :=
  if r < 256 ∧ g < 256 ∧ b < 256 then .ok (encode (.write (BitVec.ofNat 8 r) (BitVec.ofNat 8 g) (BitVec.ofNat 8 b)))
  else .error .operandRange

/-- The `WRITE`s of a list of colours, in order (R72). -/
def asmWrites : List (Nat × Nat × Nat) → Except AsmError (List Word)
  | [] => .ok []
  | (r, g, b) :: rest =>
    match asmWrite r g b, asmWrites rest with
    | .ok w, .ok ws => .ok (w :: ws)
    | .error e, _ => .error e
    | .ok _, .error e => .error e

/-- `FRAME`: the colours' `WRITE`s, then `END_FRAME` (R72). -/
def asmFrame (colours : List (Nat × Nat × Nat)) : Except AsmError (List Word) :=
  if colours = [] then .error .emptyFrame
  else
    match asmWrites colours with
    | .ok ws => .ok (ws ++ [encode .endFrame])
    | .error e => .error e

/-- The words of one line of a HOST program (R70, R72, R73). -/
def assembleCommand : AsmCommand → Except AsmError (List Word)
  | .new q => .ok [asmNew q]
  | .write r g b =>
    match asmWrite r g b with
    | .ok w => .ok [w]
    | .error e => .error e
  | .endFrame => .ok [encode .endFrame]
  | .frame colours => asmFrame colours
  | .latch => .ok [encode .endFrame]
  | .wait => .ok [encode .endFrame]
  | .blank n => asmFrame (List.replicate n (0, 0, 0))

/-- A HOST program: its lines' words in order. -/
def assembleCommands : List AsmCommand → Except AsmError (List Word)
  | [] => .ok []
  | c :: rest =>
    match assembleCommand c, assembleCommands rest with
    | .ok ws, .ok vs => .ok (ws ++ vs)
    | .error e, _ => .error e
    | .ok _, .error e => .error e

/-- One line of a micro-program listing (R70, R74). -/
inductive AsmMicro
  | driveHigh
  | driveLow
  | delayLong
  | delayShort
  | delayTrim
  | holdLatch
  | pulse1
  | pulse0
deriving DecidableEq, Repr

/-- The micro-ops of a listing line (R74). -/
def microOpsOf : AsmMicro → List Instr
  | .driveHigh => [.driveHigh]
  | .driveLow => [.driveLow]
  | .delayLong => [.delayLong]
  | .delayShort => [.delayShort]
  | .delayTrim => [.delayTrim]
  | .holdLatch => [.holdLatch]
  | .pulse1 => Sys2Proof.Machine.pulse1
  | .pulse0 => Sys2Proof.Machine.pulse0

/-- The words of a micro-program listing (R57, R75). -/
def assembleMicro (l : List AsmMicro) : List Word :=
  (l.flatMap microOpsOf).map encode

/-! ## Text -/

/-- A token of a line. -/
inductive Token
  | name (cs : List Char)
  | number (n : Nat)
  | comma
  | opening
  | closing
deriving DecidableEq, Repr

/-- The value of a decimal digit. -/
def decDigit (c : Char) : Option Nat :=
  if '0' ≤ c ∧ c ≤ '9' then some (c.toNat - '0'.toNat) else none

/-- The value of a hexadecimal digit of either case. -/
def hexDigit (c : Char) : Option Nat :=
  if 'a' ≤ c ∧ c ≤ 'f' then some (c.toNat - 'a'.toNat + 10)
  else if 'A' ≤ c ∧ c ≤ 'F' then some (c.toNat - 'A'.toNat + 10)
  else decDigit c

/-- The number a list of digits writes, on top of `acc`. -/
def digitsValue (base : Nat) (digit : Char → Option Nat) (acc : Nat) : List Char → Option Nat
  | [] => some acc
  | c :: rest =>
    match digit c with
    | some d => digitsValue base digit (acc * base + d) rest
    | none => none

/-- A number, decimal or `0x` hexadecimal (R70). -/
def parseNumber : List Char → Option Nat
  | '0' :: 'x' :: c :: rest => digitsValue 16 hexDigit 0 (c :: rest)
  | c :: rest => digitsValue 10 decDigit 0 (c :: rest)
  | [] => none

/-- A run of characters between separators: a number where it starts with a digit, else a name. -/
def tokenOf (cs : List Char) : Option Token :=
  match cs with
  | [] => none
  | c :: _ => if (decDigit c).isSome then (parseNumber cs).map .number else some (.name cs)

/-- The run read so far (its characters last first) in front of the line's other tokens. -/
def flushRun (run : List Char) (rest : Option (List Token)) : Option (List Token) :=
  match run, rest with
  | [], r => r
  | _ :: _, none => none
  | c :: cs, some ts => (tokenOf (c :: cs).reverse).map (· :: ts)

/-- The tokens of one line; a `;` starts a comment running to the end of the line (R70). -/
def tokensOf (run : List Char) : List Char → Option (List Token)
  | [] => flushRun run (some [])
  | c :: rest =>
    if c = ';' then flushRun run (some [])
    else if c = ' ' ∨ c = '\t' ∨ c = '\r' then flushRun run (tokensOf [] rest)
    else if c = ',' then flushRun run ((tokensOf [] rest).map (Token.comma :: ·))
    else if c = '(' then flushRun run ((tokensOf [] rest).map (Token.opening :: ·))
    else if c = ')' then flushRun run ((tokensOf [] rest).map (Token.closing :: ·))
    else tokensOf (c :: run) rest

/-- The colours of a `FRAME` line: `(r, g, b), (r, g, b), ...` (R72). -/
def parseColours : List Token → Option (List (Nat × Nat × Nat))
  | [.opening, .number r, .comma, .number g, .comma, .number b, .closing] => some [(r, g, b)]
  | .opening :: .number r :: .comma :: .number g :: .comma :: .number b :: .closing :: .comma :: rest =>
    (parseColours rest).map ((r, g, b) :: ·)
  | _ => none

/-- The policy names of R70. -/
def policyNamed (cs : List Char) : Option Policy :=
  if cs = ['B', 'R', 'G'] then some .brg
  else if cs = ['R', 'G', 'B'] then some .rgb
  else if cs = ['G', 'R', 'B'] then some .grb
  else none

/-- A line of a HOST program, from its mnemonic and its operands (R70, R72, R73). -/
def parseCommand (m : List Char) (ops : List Token) : Option AsmCommand :=
  if m = ['N', 'E', 'W'] then
    match ops with
    | [.name q] => (policyNamed q).map .new
    | _ => none
  else if m = ['W', 'R', 'I', 'T', 'E'] then
    match ops with
    | [.number r, .comma, .number g, .comma, .number b] => some (.write r g b)
    | _ => none
  else if m = ['E', 'N', 'D', '_', 'F', 'R', 'A', 'M', 'E'] then (if ops = [] then some .endFrame else none)
  else if m = ['L', 'A', 'T', 'C', 'H'] then (if ops = [] then some .latch else none)
  else if m = ['W', 'A', 'I', 'T'] then (if ops = [] then some .wait else none)
  else if m = ['B', 'L', 'A', 'N', 'K'] then
    match ops with
    | [.number n] => some (.blank n)
    | _ => none
  else if m = ['F', 'R', 'A', 'M', 'E'] then (parseColours ops).map .frame
  else none

/-- A line of a micro-program listing: the mnemonics of R64, their aliases (R70) and the pseudo-ops of R74. -/
def parseMicro (m : List Char) : Option AsmMicro :=
  if m = ['D', 'R', 'I', 'V', 'E', '_', 'H', 'I', 'G', 'H'] then some .driveHigh
  else if m = ['D', 'R', 'I', 'V', 'E', '_', 'L', 'O', 'W'] then some .driveLow
  else if m = ['D', 'E', 'L', 'A', 'Y', '_', 'L', 'O', 'N', 'G'] then some .delayLong
  else if m = ['D', 'E', 'L', 'A', 'Y', '_', '8', '0', '0'] then some .delayLong
  else if m = ['D', 'E', 'L', 'A', 'Y', '_', 'S', 'H', 'O', 'R', 'T'] then some .delayShort
  else if m = ['D', 'E', 'L', 'A', 'Y', '_', '4', '0', '0'] then some .delayShort
  else if m = ['D', 'E', 'L', 'A', 'Y', '_', 'T', 'R', 'I', 'M'] then some .delayTrim
  else if m = ['D', 'E', 'L', 'A', 'Y', '_', '5', '0'] then some .delayTrim
  else if m = ['H', 'O', 'L', 'D', '_', 'L', 'A', 'T', 'C', 'H'] then some .holdLatch
  else if m = ['P', 'U', 'L', 'S', 'E', '1'] then some .pulse1
  else if m = ['P', 'U', 'L', 'S', 'E', '0'] then some .pulse0
  else none

/-- The words of one line of a HOST program's text; an empty line or a comment has none (R70). -/
def assembleLine (line : List Char) : Except AsmError (List Word) :=
  match tokensOf [] line with
  | some [] => .ok []
  | some (.name m :: ops) =>
    match parseCommand m ops with
    | some c => assembleCommand c
    | none => .error .badSyntax
  | _ => .error .badSyntax

/-- The lines of a text. -/
def linesOf (line : List Char) : List Char → List (List Char)
  | [] => [line.reverse]
  | c :: rest => if c = '\n' then line.reverse :: linesOf [] rest else linesOf (c :: line) rest

/-- The words of a list of lines, in order. -/
def assembleLines : List (List Char) → Except AsmError (List Word)
  | [] => .ok []
  | l :: rest =>
    match assembleLine l, assembleLines rest with
    | .ok ws, .ok vs => .ok (ws ++ vs)
    | .error e, _ => .error e
    | .ok _, .error e => .error e

/-- The command stream a HOST program's text stands for, one command per line (R70). -/
def assembleText (text : List Char) : Except AsmError (List Word) :=
  assembleLines (linesOf [] text)

/-- The words of one line of a micro-program listing's text (R70, R74). -/
def assembleMicroLine (line : List Char) : Except AsmError (List Word) :=
  match tokensOf [] line with
  | some [] => .ok []
  | some [.name m] =>
    match parseMicro m with
    | some c => .ok (assembleMicro [c])
    | none => .error .badSyntax
  | _ => .error .badSyntax

end Sys2Proof.Machine
end

