-- ==== Sys2Proof/Machine/Waveform.lean ====
section
/-!
DEFINITION. What a run shows the world (44_wire_protocol.md R137): the waveform of a trace (R138), its segments (R139) and
the logical pulses read off it (42_pulse_emitter.md R113).
-/
namespace Sys2Proof.Machine

/-- The level the pin has once the trace's events up to time `τ` have happened, from the level `before` (R105): a later
event of TRACE at the same time sets the level (R138). -/
def levelAfter (before : Pin) (tr : List PinEvent) (τ : Ns) : Pin :=
  tr.foldl (fun l e => if e.time ≤ τ then e.level.toPin else l) before

/-- The waveform `W` of a trace on `[0, tEnd]` (R138), `UNKNOWN` before the first event. -/
def waveAt (tr : List PinEvent) (tEnd τ : Ns) : Option Pin :=
  if 0 ≤ τ ∧ τ ≤ tEnd then some (levelAfter .unknown tr τ) else none

/-- The waveform on the physical wire, where the unknown level before the first event is the level `d` (R26, R138): a
claim about the wire must hold for both values of `d`. -/
def waveDrawnAt (d : Level) (tr : List PinEvent) (tEnd τ : Ns) : Option Pin :=
  if 0 ≤ τ ∧ τ ≤ tEnd then some (levelAfter d.toPin tr τ) else none

/-- A maximal interval of constant level (R139). -/
structure Segment where
  level : Pin
  start : Ns
  dur : Ns
deriving DecidableEq, Repr

/-- The intervals from each event to the next one, the last to `tEnd` (R138). -/
def drivenIntervals (tEnd : Ns) : List PinEvent → List Segment
  | [] => []
  | [e] => [⟨e.level.toPin, e.time, tEnd - e.time⟩]
  | e :: f :: rest => ⟨e.level.toPin, e.time, f.time - e.time⟩ :: drivenIntervals tEnd (f :: rest)

/-- One interval in front of a list of segments: equal neighbours merge (R139). -/
def joinSegment (x : Segment) : List Segment → List Segment
  | [] => [x]
  | y :: rest => if x.level = y.level then ⟨x.level, x.start, x.dur + y.dur⟩ :: rest else x :: y :: rest

/-- Intervals of length 0 are dropped and equal neighbours merged (R139). -/
def mergeSegments (l : List Segment) : List Segment :=
  (l.filter fun x => decide (0 < x.dur)).foldr joinSegment []

/-- The time of a trace's first event, or the end of the run where there is none. -/
def firstEventTime (tr : List PinEvent) (tEnd : Ns) : Ns :=
  match tr with
  | [] => tEnd
  | e :: _ => e.time

/-- `SEGMENTS(W)` (R139), the time before the first event being one interval at the level `before`: `UNKNOWN`, or a draw
of it (R26). -/
def segments (before : Pin) (tr : List PinEvent) (tEnd : Ns) : List Segment :=
  mergeSegments (⟨before, 0, firstEventTime tr tEnd⟩ :: drivenIntervals tEnd tr)

/-- The segments measured from the first event on, as the decoder measures them (R141). -/
def drivenSegments (tr : List PinEvent) (tEnd : Ns) : List Segment :=
  mergeSegments (drivenIntervals tEnd tr)

/-- A logical pulse (R113): its rise, its high duration, and its low duration where a further pulse ends the low. -/
structure LogicalPulse where
  rise : Ns
  highDur : Ns
  lowDur : Option Ns
deriving DecidableEq, Repr

/-- The time of the next `HIGH` event of a trace. -/
def nextRise : List PinEvent → Option Ns
  | [] => none
  | e :: rest => if e.level = .high then some e.time else nextRise rest

/-- The time of the next `LOW` event of a trace, and the events after it. -/
def nextFall : List PinEvent → Option (Ns × List PinEvent)
  | [] => none
  | e :: rest => if e.level = .low then some (e.time, rest) else nextFall rest

/-- The logical pulse of a rise at `rise` that the events `after` follow: its fall is the next `LOW` event, and its low runs
from there to the next `HIGH` event after the fall (R113). -/
def pulseOfRise (rise : Ns) (after : List PinEvent) : Option LogicalPulse :=
  (nextFall after).map fun fall => ⟨rise, fall.1 - rise, (nextRise fall.2).map fun r => r - fall.1⟩

/-- The logical pulses of a trace: each `HIGH` event with the next `LOW` event (R113). -/
def logicalPulses : List PinEvent → List LogicalPulse
  | [] => []
  | e :: rest => (if e.level = .high then (pulseOfRise e.time rest).toList else []) ++ logicalPulses rest

end Sys2Proof.Machine
end

