-- ==== Sys2Proof/Machine/WireDecoder.lean ====
section
/-!
DEFINITION. The reference wire decoder (44_wire_protocol.md R140 to R147): from the waveform of a run to frames of 24-bit
colour words. It stands for the third-party receivers, and no claim is made beyond it (R148).
-/
namespace Sys2Proof.Machine

/-- `|x - nominal| <= TOL_RX` (R142). -/
def within (tolRx nominal x : Ns) : Bool :=
  decide (x ≤ nominal + tolRx) && decide (nominal ≤ x + tolRx)

/-- A `LOW` of at least `T_RESET_MIN` is a latch (R141). -/
def isLatchLow (dur : Ns) : Bool := decide (Config.tResetMin ≤ dur)

/-- Whether a segment is a latch (R141). -/
def Segment.isLatch (x : Segment) : Bool :=
  decide (x.level = .low) && isLatchLow x.dur

/-- The bit of a pulse with high duration `h` and low duration `l`; `none` is MALFORMED (R142). -/
def classifyPulse (tolRx h l : Ns) : Option Bool :=
  if within tolRx Config.t1h h && (within tolRx Config.t1l l || isLatchLow l) then some true
  else if within tolRx Config.t0h h && (within tolRx Config.t0l l || isLatchLow l) then some false
  else none

/-- What the decoder returns (R143, R144): MALFORMED, or the frames in order and the bits the receivers have not
rendered. -/
inductive WireResult
  | malformed
  | decoded (frames : List (List ColourWord)) (pending : List Bool)
deriving DecidableEq, Repr

/-- `sum over i of bit[i] * 2^i` (R145). -/
def bitsToNat : List Bool → Nat
  | [] => 0
  | b :: rest => b.toNat + 2 * bitsToNat rest

/-- The first `n` colour words of a bit list (R145). -/
def colourWords : Nat → List Bool → List ColourWord
  | 0, _ => []
  | n + 1, bits => BitVec.ofNat 24 (bitsToNat (bits.take 24)) :: colourWords n (bits.drop 24)

/-- A latch closes the current bit list (R144, R145): no frame of an empty list, MALFORMED where the count is no multiple
of 24 (R143 d), and otherwise one more frame. -/
def closeFrame (frames : List (List ColourWord)) (bits : List Bool) : Option (List (List ColourWord)) :=
  if bits = [] then some frames
  else if bits.length % 24 = 0 then some (frames ++ [colourWords (bits.length / 24) bits])
  else none

/-- The walk over the segments after the first latch (R144): each pulse appends its bit, each latch closes the list. A
high with no low after it (R143 b) and a low that is neither a bit's low nor a latch (R143 c) are MALFORMED. -/
def walkSegments (tolRx : Ns) (frames : List (List ColourWord)) (bits : List Bool) : List Segment → WireResult
  | [] => .decoded frames bits
  | [x] =>
    if x.isLatch then
      match closeFrame frames bits with
      | some fs => .decoded fs []
      | none => .malformed
    else .malformed
  | x :: y :: rest =>
    if x.level = .high then
      if y.level = .low then
        match classifyPulse tolRx x.dur y.dur with
        | none => .malformed
        | some b =>
          if y.isLatch then
            match closeFrame frames (bits ++ [b]) with
            | some fs => walkSegments tolRx fs [] rest
            | none => .malformed
          else walkSegments tolRx frames (bits ++ [b]) rest
      else .malformed
    else if x.isLatch then
      match closeFrame frames bits with
      | some fs => walkSegments tolRx fs [] (y :: rest)
      | none => .malformed
    else .malformed

/-- The segments that follow the first latch (R144, R146); none where there is no latch. -/
def afterFirstLatch : List Segment → List Segment
  | [] => []
  | x :: rest => if x.isLatch then rest else afterFirstLatch rest

/-- Whether the last segment is `HIGH`: a pulse is unfinished at the end (R143 b). -/
def endsHigh (l : List Segment) : Bool :=
  match l.getLast? with
  | some x => decide (x.level = .high)
  | none => false

/-- The reference wire decoder on a run's trace and end time (R137, R141 to R146; log entry 9). -/
def decodeWire (tolRx : Ns) (tr : List PinEvent) (tEnd : Ns) : WireResult :=
  let segs := drivenSegments tr tEnd
  if endsHigh segs then .malformed else walkSegments tolRx [] [] (afterFirstLatch segs)

/-- The word meant for the `k`-th LED of the chain, counting from 0 at the pin (R147). What a LED past the frame's end
does is OPEN (D29). -/
def wordForLed (frame : List ColourWord) (k : Nat) : Option ColourWord := frame[k]?

end Sys2Proof.Machine
end

