-- ==== Sys2Proof/Safety.lean ====
section
/-!
DEFINITION. What counts as a good run (43_writer_engine.md R134), HOST's duties (R135), the states a run can reach, and the
invariant of every reachable state. Claims are stated in these terms.
-/
namespace Sys2Proof.Machine

/-- "FAULT_CODE = 0x00 and TV = 0", the premise of a claim about a good run (R134). -/
def State.good (s : State) : Bool :=
  decide (s.faultCode = .noFault) && !s.tv

/-- A run has ended (R134): HOST's stream is exhausted and ENGINE runs no command. -/
def State.ended (s : State) : Bool :=
  s.nextWord.isNone && !s.running

/-- The transitions of ENG_STATE that R25 lists, apart from staying and from reset, which leads to UNBOUND from anywhere. -/
def legalTransition (a b : EngState) : Bool :=
  match a, b with
  | .unbound, .idle => true
  | .idle, .emitting => true
  | .emitting, .idle => true
  | .idle, .latching => true
  | .latching, .idle => true
  | .unbound, .faulted => true
  | .idle, .faulted => true
  | .unbound, _ => false
  | .idle, _ => false
  | .emitting, _ => false
  | .latching, _ => false
  | .faulted, _ => false

/-! ## HOST's duties (R135) -/

/-- Frames of `WRITE`s each closed by `END_FRAME` (R126, R181); `inFrame` says a frame is open. A latch with no `WRITE`
before it is allowed (R122). -/
def framedFrom (inFrame : Bool) : List Instr → Bool
  | [] => !inFrame
  | .write _ _ _ :: rest => framedFrom true rest
  | .endFrame :: rest => framedFrom false rest
  | .new _ :: _ => false
  | .driveHigh :: _ => false
  | .driveLow :: _ => false
  | .delayLong :: _ => false
  | .delayShort :: _ => false
  | .delayTrim :: _ => false
  | .holdLatch :: _ => false

/-- HOST's stream of commands: one `NEW`, then frames (R135). -/
def framed : List Instr → Bool
  | .new _ :: rest => framedFrom false rest
  | _ => false

/-- The time HOST leaves idle before its `k`-th coming issue, counting from 0: all its gaps since the issue before it, in a
schedule without resets (R115). A gap waits while ENGINE runs, so this is the idle time between the two commands; a
negative gap is no step. -/
def gapBefore : List Move → Nat → Ns
  | [], _ => 0
  | .gap g :: rest, 0 => (if 0 ≤ g then g else 0) + gapBefore rest 0
  | .gap _ :: rest, k + 1 => gapBefore rest (k + 1)
  | .issue :: _, 0 => 0
  | .issue :: rest, k + 1 => gapBefore rest k
  | .microOp :: rest, k => gapBefore rest k
  | .stall _ :: rest, k => gapBefore rest k
  | .reset :: rest, k => gapBefore rest k

/-- Whether a command is a `WRITE`. -/
def isWrite : Instr → Bool
  | .new _ => false
  | .write _ _ _ => true
  | .endFrame => false
  | .driveHigh => false
  | .driveLow => false
  | .delayLong => false
  | .delayShort => false
  | .delayTrim => false
  | .holdLatch => false

/-- Commands `k` and `k + 1` of a stream are `WRITE`s of one frame, with nothing between them (R124, R178). -/
def chainedAt (cmds : List Instr) (k : Nat) : Bool :=
  (cmds[k]?.map isWrite).getD false && (cmds[k + 1]?.map isWrite).getD false

/-- HOST's duty inside a frame: the whole idle low before each `WRITE` that follows a `WRITE` is at most `GAP_MAX` (R7,
R178). No other gap is bounded: between frames HOST may wait any time (R190). -/
def frameGapsWithin (p : Params) (cmds : List Instr) (moves : List Move) : Bool :=
  (List.range cmds.length).all fun k => !(chainedAt cmds k) || decide (gapBefore moves (k + 1) ≤ p.gapMax)

/-- Interrupts are kept disabled: no stall is to come (R160, R176, R180). -/
def noStall : Move → Bool
  | .gap _ => true
  | .issue => true
  | .microOp => true
  | .stall _ => false
  | .reset => true

/-- HOST's duties over a whole run from reset that no reset cuts: the stream is framed, no gap inside a frame is above
GAP_MAX, and nothing interrupts (R135, R160, R178, R181). -/
def hostDuties (p : Params) (cmds : List Instr) (moves : List Move) : Bool :=
  framed cmds && frameGapsWithin p cmds moves && moves.all noStall

/-- No stall and no reset comes before HOST's next own move, which waits while ENGINE runs a command (R115): the command
runs on uninterrupted. -/
def State.undisturbed (s : State) : Bool :=
  match s.schedule with
  | [] => true
  | .gap g :: _ => decide (0 ≤ g)
  | .issue :: _ => true
  | .microOp :: _ => false
  | .stall _ :: _ => false
  | .reset :: _ => false

/-- No command is running and none is ignored: an `issue` is checked (R153). -/
def State.accepting (s : State) : Bool :=
  decide (s.engState = .unbound) || decide (s.engState = .idle)

/-- `u` is what a reset event due in `s` leaves: a `reset` stands in the schedule, only the moves after it are still to
come, and every element has its reset value (R38, R171). No command performs a reset (R171). -/
def State.ResetTo (s u : State) : Prop :=
  .reset :: u.schedule <:+ s.schedule ∧
    u = { State.reset with stream := s.stream, schedule := u.schedule, draws := s.draws }

/-! ## Reachable states and their invariant -/

/-- A state some run of an instance `p` reaches: from reset with any command stream and any coming moves. -/
inductive Reachable (p : Params) : State → Prop
  | start (ws : List Word) (moves : List Move) : Reachable p (State.withProgram ws moves)
  | more {s u : State} (h : Reachable p s) (hs : stepOn p s = .next u) : Reachable p u

/-- The level the last event of a trace leaves (R26, R35): UNKNOWN for an empty trace. -/
def traceLevel (tr : List PinEvent) : Pin :=
  match tr.getLast? with
  | none => .unknown
  | some e => e.level.toPin

/-- The level a micro-op word drives, if it drives the pin (R103, R104). -/
def drivenLevel (w : Word) : Option Level :=
  if w = encode .driveHigh then some .high
  else if w = encode .driveLow then some .low
  else none

/-- The pin is in a pulse's high phase: `DRIVE_HIGH` is performed and `DRIVE_LOW` is not (R106, R107). -/
def State.highPhase (s : State) : Bool :=
  decide (s.engState = .emitting) && (s.phase == 1 || s.phase == 2)

/-- The last micro-op was a drive and no delay has passed since. -/
def State.justDriven (s : State) : Bool :=
  match s.engState with
  | .emitting => s.phase == 1 || s.phase == 3
  | .latching => s.phase == 1
  | .unbound => false
  | .idle => false
  | .faulted => false

/-- What every reachable state of an instance `p` satisfies. -/
structure State.Inv (p : Params) (s : State) : Prop where
  /-- BOUND and POLICY go together (R23, R24). -/
  bound_iff : s.bound = s.policy.isSome
  /-- POLICY never holds a code without a map (R86). -/
  policy_implemented : ∀ q, s.policy = some q → policyOf p.hasExtraPolicies (policyCode q) = some q
  /-- ENGINE is bound in IDLE, EMITTING and LATCHING, and not in UNBOUND (R24, R25). -/
  bound_of_state : (s.engState = .unbound → s.bound = false) ∧ (s.engState = .idle → s.bound = true) ∧
    (s.engState = .emitting → s.bound = true) ∧ (s.engState = .latching → s.bound = true)
  /-- FAULT_CODE is set exactly in FAULTED (R30, R154). -/
  faulted_iff : s.engState = .faulted ↔ s.faultCode ≠ .noFault
  /-- BIT_IDX and PHASE stay in range while they are read (R28, R29). -/
  emitting_position : s.engState = .emitting → s.bitIdx.toNat < 24 ∧ s.phase.toNat < 5
  latching_position : s.engState = .latching → s.phase.toNat < 2
  /-- PIN is the level last driven (R26). -/
  pin_last : s.pin = traceLevel s.trace
  /-- The pin is high in a pulse's high phase and at no other time (R106, R107, R119, R121). -/
  pin_high : s.pin = .high ↔ s.highPhase = true
  /-- The pin is low once it has been driven low, before the first drive of the next pulse. -/
  pin_low : (s.engState = .emitting → s.phase.toNat = 3 ∨ s.phase.toNat = 4 → s.pin = .low) ∧
    (s.engState = .latching → s.phase.toNat = 1 → s.pin = .low)
  /-- Nothing is driven before `NEW` (R26, R116). -/
  unbound_trace : s.bound = false → s.trace = [] ∧ s.tv = false
  /-- Model time is not negative (R12, R34). -/
  time_nonneg : 0 ≤ s.t
  /-- The events' times rise strictly (R50, R138) and none is later than the present. -/
  trace_sorted : s.trace.Pairwise fun e f => e.time < f.time
  trace_past : ∀ e ∈ s.trace, 0 ≤ e.time ∧ e.time ≤ s.t
  /-- A delay has passed since the last drive, unless that drive was the last micro-op (R138). -/
  trace_before : s.justDriven = false → ∀ e ∈ s.trace, e.time < s.t
  /-- TRACE's levels are those of the drives among the performed micro-ops (R35, R75). -/
  trace_levels : s.trace.map PinEvent.level = s.microTrace.filterMap drivenLevel
  /-- HOST_IDX is a position of the stream or its end (R22). -/
  hostIdx_le : s.hostIdx ≤ s.stream.length

end Sys2Proof.Machine
end

