-- ==== Sys2Proof/Certificates/Slice0/Obligations.lean ====
section
/-!
DEFINITION. The statements for the provers. Each docstring names the rules of the spec it formalises. A statement over every
`p : Params` holds for every choice of the OPEN parameters (00_scope.md R7), the machine's own (`Config.params`) among
them; `exec` and `step` are the machine's.
-/
open Sys2Proof Sys2Proof.Machine

/-! ## Encoding -/

/-- R59, R61, R62, R63, R64: the word of every instruction, with every operand at every value its field admits, decodes to
that instruction; and the command port (R71) gives every well-formed command from its word. -/
def Obligations.DecodeOfEncode : Prop :=
  (∀ i : Instr, decode (encode i) = .ok i) ∧
    ∀ (hasExtra : Bool) (i : Instr), i.isCommand = true → i.wf hasExtra = true →
      decodeCommand hasExtra (encode i) = .ok i

/-- R64, R67, R71: a word has at most one reading, and reading it drops no bit: what a word decodes to encodes to that
word. -/
def Obligations.EncodeOfDecode : Prop :=
  ∀ (w : Word) (i : Instr), decode w = .ok i → encode i = w

/-- R64: the opcode map, row by row, and which rows are format H (HOST's three opcodes); a word is one of its
instructions exactly when it matches a row, and then it matches the row of that instruction; no two rows match the same word; `NEW` with `pp = 11` matches the `NEW` row and the
command port answers BAD_POLICY. -/
def Obligations.OpcodeMapUnambiguous : Prop :=
  ((∀ pol, opcodeRowOf (.new pol) = ⟨0x01000000#32, 0xFFFFFFFC#32⟩) ∧
      (∀ r g b, opcodeRowOf (.write r g b) = ⟨0x02000000#32, 0xFF000000#32⟩) ∧
      opcodeRowOf .endFrame = ⟨0x03000000#32, 0xFFFFFFFF#32⟩ ∧
      opcodeRowOf .driveHigh = ⟨0x10000000#32, 0xFFFFFFFF#32⟩ ∧
      opcodeRowOf .driveLow = ⟨0x11000000#32, 0xFFFFFFFF#32⟩ ∧
      opcodeRowOf .delayLong = ⟨0x20000000#32, 0xFFFFFFFF#32⟩ ∧
      opcodeRowOf .delayShort = ⟨0x21000000#32, 0xFFFFFFFF#32⟩ ∧
      opcodeRowOf .delayTrim = ⟨0x22000000#32, 0xFFFFFFFF#32⟩ ∧
      opcodeRowOf .holdLatch = ⟨0x23000000#32, 0xFFFFFFFF#32⟩) ∧
    (∀ row : OpcodeRow, row ∈ opcodeRows ↔ ∃ i, opcodeRowOf i = row) ∧
    (∀ i : Instr, i.isCommand = true ↔ opcOf (opcodeRowOf i).matchBits ∈ [0x01#8, 0x02#8, 0x03#8]) ∧
    (∀ (w : Word) (i : Instr), decode w = .ok i → w &&& (opcodeRowOf i).mask = (opcodeRowOf i).matchBits) ∧
    (∀ (w : Word) (row : OpcodeRow), row ∈ opcodeRows → w &&& row.mask = row.matchBits →
      ∃ i, decode w = .ok i ∧ opcodeRowOf i = row) ∧
    (∀ (w : Word) (row row' : OpcodeRow), row ∈ opcodeRows → row' ∈ opcodeRows →
      w &&& row.mask = row.matchBits → w &&& row'.mask = row'.matchBits → row = row') ∧
    (0x01000003#32 &&& 0xFFFFFFFC#32 = 0x01000000#32) ∧
    ∀ hasExtra : Bool, decodeCommand hasExtra 0x01000003#32 = .error .badPolicy

/-- R64, R75 and the vectors of 95_test_vectors.md 2.1: words written out from the encodings decode to the instructions they
stand for. -/
def Obligations.SampleWordsDecode : Prop :=
  decode 0x01000000#32 = .ok (.new 0) ∧ decode 0x01000002#32 = .ok (.new 2) ∧
    decode 0x02123456#32 = .ok (.write 0x12 0x34 0x56) ∧ decode 0x02FF0000#32 = .ok (.write 0xFF 0 0) ∧
    decode 0x03000000#32 = .ok .endFrame ∧ decode 0x10000000#32 = .ok .driveHigh ∧
    decode 0x11000000#32 = .ok .driveLow ∧ decode 0x20000000#32 = .ok .delayLong ∧
    decode 0x21000000#32 = .ok .delayShort ∧ decode 0x22000000#32 = .ok .delayTrim ∧
    decode 0x23000000#32 = .ok .holdLatch

/-- R71, its pseudocode: the command-port decoder on every 32-bit word; and what HOST's issue then does:
the decoder's fault, or the command with its state checks (R153). -/
def Obligations.CommandPortDecoder : Prop :=
  (∀ (hasExtra : Bool) (w : Word),
    decodeCommand hasExtra w =
      if w.extractLsb' 24 8 = 0x01#8 then
        if w.extractLsb' 2 22 ≠ 0#22 then .error .reservedNonzero
        else if w.extractLsb' 0 2 = 3#2 then .error .badPolicy
        else if (w.extractLsb' 0 2 = 1#2 ∨ w.extractLsb' 0 2 = 2#2) ∧ hasExtra = false then .error .badPolicy
        else .ok (.new (w.extractLsb' 0 2))
      else if w.extractLsb' 24 8 = 0x02#8 then
        .ok (.write (w.extractLsb' 16 8) (w.extractLsb' 8 8) (w.extractLsb' 0 8))
      else if w.extractLsb' 24 8 = 0x03#8 then
        if w.extractLsb' 0 24 ≠ 0#24 then .error .reservedNonzero else .ok .endFrame
      else .error .illegalOpcode) ∧
    ∀ (s : State) (w : Word), s.accepting = true →
      issueWord exec w s =
        match decodeCommand Config.params.hasExtraPolicies w with
        | .error c => .next (s.takeWord.raiseFault c)
        | .ok i => exec i s

/-- R65: HOST's issue of a word whose opcode is not `0x01`, `0x02` or `0x03` takes ILLEGAL_OPCODE, code `0x01`; the all-zero
word is one of them. -/
def Obligations.IllegalOpcodeFaults : Prop :=
  (∀ (s : State) (w : Word), s.accepting = true → opcOf w ≠ 0x01 → opcOf w ≠ 0x02 → opcOf w ≠ 0x03 →
      issueWord exec w s = .next (s.takeWord.raiseFault .illegalOpcode)) ∧
    faultCodeOf .illegalOpcode = 0x01#8 ∧
    ∀ s : State, s.accepting = true → issueWord exec 0#32 s = .next (s.takeWord.raiseFault .illegalOpcode)

/-- R66: HOST's issue of any word with a micro-op opcode takes ILLEGAL_OPCODE, each micro-op's own word among them. -/
def Obligations.MicroOpsIllegalForHost : Prop :=
  (∀ (s : State) (w : Word), s.accepting = true →
      opcOf w ∈ [0x10#8, 0x11#8, 0x20#8, 0x21#8, 0x22#8, 0x23#8] →
        issueWord exec w s = .next (s.takeWord.raiseFault .illegalOpcode)) ∧
    ∀ i : Instr, i.isCommand = false → opcOf (encode i) ∈ [0x10#8, 0x11#8, 0x20#8, 0x21#8, 0x22#8, 0x23#8]

/-- R67: HOST's issue of a `NEW` with `w[23:2] != 0` or an `END_FRAME` with `w[23:0] != 0` takes RESERVED_NONZERO, code
`0x02`. -/
def Obligations.ReservedBitsFault : Prop :=
  (∀ (s : State) (w : Word), s.accepting = true → opcOf w = 0x01 → newReservedOf w ≠ 0 →
      issueWord exec w s = .next (s.takeWord.raiseFault .reservedNonzero)) ∧
    (∀ (s : State) (w : Word), s.accepting = true → opcOf w = 0x03 → argOf w ≠ 0 →
      issueWord exec w s = .next (s.takeWord.raiseFault .reservedNonzero)) ∧
    faultCodeOf .reservedNonzero = 0x02#8

/-! ## The channel-order policies -/

/-- R79: the BRG map bit by bit, the number `S`, and the rule's example. -/
def Obligations.BrgBitMap : Prop :=
  (∀ (c : Colour) (i : Nat), i < 8 →
      (sequenceOf (bitsFor .brg c))[i]? = some ((c.b >>> i).getLsbD 0) ∧
        (sequenceOf (bitsFor .brg c))[i + 8]? = some ((c.r >>> i).getLsbD 0) ∧
        (sequenceOf (bitsFor .brg c))[i + 16]? = some ((c.g >>> i).getLsbD 0)) ∧
    (∀ c : Colour, (bitsFor .brg c).toNat = c.g.toNat * 2 ^ 16 + c.r.toNat * 2 ^ 8 + c.b.toNat) ∧
    (∀ (c : Colour) (i : Nat), i < 24 → (sequenceOf (bitsFor .brg c))[i]? = some ((bitsFor .brg c).getLsbD i)) ∧
    bitsFor .brg ⟨0x01, 0x02, 0x80⟩ = 0x020180#24 ∧
    (List.range 24).filter (bitsFor .brg ⟨0x01, 0x02, 0x80⟩).getLsbD = [7, 8, 17]

/-- R80: the RGB map bit by bit, the number `S`, its example, and that code `01` names it only with
HAS_EXTRA_POLICIES. -/
def Obligations.RgbBitMap : Prop :=
  (∀ (c : Colour) (i : Nat), i < 8 →
      (sequenceOf (bitsFor .rgb c))[i]? = some ((c.r >>> i).getLsbD 0) ∧
        (sequenceOf (bitsFor .rgb c))[i + 8]? = some ((c.g >>> i).getLsbD 0) ∧
        (sequenceOf (bitsFor .rgb c))[i + 16]? = some ((c.b >>> i).getLsbD 0)) ∧
    (∀ c : Colour, (bitsFor .rgb c).toNat = c.b.toNat * 2 ^ 16 + c.g.toNat * 2 ^ 8 + c.r.toNat) ∧
    bitsFor .rgb ⟨0x01, 0x02, 0x80⟩ = 0x800201#24 ∧ policyOf true 1 = some .rgb ∧ policyOf false 1 = none

/-- R81: the GRB map bit by bit, the number `S`, its example, and that code `10` names it only with
HAS_EXTRA_POLICIES. -/
def Obligations.GrbBitMap : Prop :=
  (∀ (c : Colour) (i : Nat), i < 8 →
      (sequenceOf (bitsFor .grb c))[i]? = some ((c.g >>> i).getLsbD 0) ∧
        (sequenceOf (bitsFor .grb c))[i + 8]? = some ((c.r >>> i).getLsbD 0) ∧
        (sequenceOf (bitsFor .grb c))[i + 16]? = some ((c.b >>> i).getLsbD 0)) ∧
    (∀ c : Colour, (bitsFor .grb c).toNat = c.b.toNat * 2 ^ 16 + c.r.toNat * 2 ^ 8 + c.g.toNat) ∧
    bitsFor .grb ⟨0x01, 0x02, 0x80⟩ = 0x800102#24 ∧ policyOf true 2 = some .grb ∧ policyOf false 2 = none

/-- R85 (the spec's own derivation): under each policy every 24-bit sequence is the sequence of exactly one colour. -/
def Obligations.PolicyIsBijection : Prop :=
  ∀ (pol : Policy) (seq : ColourWord), ∃ c : Colour, bitsFor pol c = seq ∧ ∀ d : Colour, bitsFor pol d = seq → d = c

/-- R89 (the spec's own derivation): the number of ones of a sequence is that of the three channels together. -/
def Obligations.PolicyKeepsOnes : Prop :=
  ∀ (pol : Policy) (c : Colour),
    (sequenceOf (bitsFor pol c)).countP (fun b => b) =
      (List.range 8).countP c.r.getLsbD + (List.range 8).countP c.g.getLsbD + (List.range 8).countP c.b.getLsbD

/-- R83, R88: every sequence has 24 elements; black is all false and white all true under every policy; red under BRG is
eight false, eight true, eight false. -/
def Obligations.CornerColourSequences : Prop :=
  (∀ (pol : Policy) (c : Colour), (sequenceOf (bitsFor pol c)).length = 24) ∧
    (∀ pol : Policy, sequenceOf (bitsFor pol ⟨0, 0, 0⟩) = List.replicate 24 false) ∧
    (∀ pol : Policy, sequenceOf (bitsFor pol ⟨255, 255, 255⟩) = List.replicate 24 true) ∧
    sequenceOf (bitsFor .brg ⟨255, 0, 0⟩) = List.replicate 8 false ++ List.replicate 8 true ++ List.replicate 8 false

/-! ## Delay primitives and the latch hold -/

/-- R90 to R93: in every state each delay primitive completes, advances model time by its own draw `D_x`, and leaves every
other element as it was; in the nominal model the durations are 800, 400 and 50 ns. The draw counter is the model's own
(log entry 5). -/
def Obligations.DelayPrimitivesComplete : Prop :=
  (∀ s : State, exec .delayLong s =
      .next { s with t := s.t + Config.params.long.draw s.draws, draws := s.draws + 1 }) ∧
    (∀ s : State, exec .delayShort s =
      .next { s with t := s.t + Config.params.short.draw s.draws, draws := s.draws + 1 }) ∧
    (∀ s : State, exec .delayTrim s =
      .next { s with t := s.t + Config.params.trim.draw s.draws, draws := s.draws + 1 }) ∧
    ∀ (p : Params) (s : State), p.IsNominal →
      execOn p .delayLong s = .next { s with t := s.t + 800, draws := s.draws + 1 } ∧
        execOn p .delayShort s = .next { s with t := s.t + 400, draws := s.draws + 1 } ∧
        execOn p .delayTrim s = .next { s with t := s.t + 50, draws := s.draws + 1 }

/-- R96: whatever the draws are, each execution of a delay primitive takes a time within its tolerance of the nominal
duration, and some time (R138). -/
def Obligations.DelaysWithinTolerance : Prop :=
  (∀ s u : State, exec .delayLong s = .next u →
      800 - Config.params.long.tol ≤ u.t - s.t ∧ u.t - s.t ≤ 800 + Config.params.long.tol ∧ s.t < u.t) ∧
    (∀ s u : State, exec .delayShort s = .next u →
      400 - Config.params.short.tol ≤ u.t - s.t ∧ u.t - s.t ≤ 400 + Config.params.short.tol ∧ s.t < u.t) ∧
    ∀ s u : State, exec .delayTrim s = .next u →
      50 - Config.params.trim.tol ≤ u.t - s.t ∧ u.t - s.t ≤ 50 + Config.params.trim.tol ∧ s.t < u.t

/-- R94: in every state `HOLD_LATCH` completes, advances model time by `D_LATCH`, at least 300 000 ns and exactly that in the
nominal model, and changes nothing else. -/
def Obligations.HoldLatchCompletes : Prop :=
  (∀ s : State, exec .holdLatch s = .next { s with t := s.t + Config.params.dLatch }) ∧
    300000 ≤ Config.params.dLatch ∧
    ∀ (p : Params) (s : State), p.IsNominal → execOn p .holdLatch s = .next { s with t := s.t + 300000 }

/-! ## The pulse emitter -/

/-- R103, R104: in every state each drive completes, sets the pin, appends its event at the present time also where the
level does not change, takes `D_DRV`, and changes nothing else. -/
def Obligations.DrivesComplete : Prop :=
  (∀ s : State, exec .driveHigh s =
      .next { s with pin := .high, trace := s.trace ++ [⟨s.t, .high⟩], t := s.t + Config.params.dDrv }) ∧
    (∀ s : State, exec .driveLow s =
      .next { s with pin := .low, trace := s.trace ++ [⟨s.t, .low⟩], t := s.t + Config.params.dDrv }) ∧
    0 ≤ Config.params.dDrv ∧
    ∀ (p : Params) (s : State), p.IsNominal →
      execOn p .driveHigh s = .next { s with pin := .high, trace := s.trace ++ [⟨s.t, .high⟩] } ∧
        execOn p .driveLow s = .next { s with pin := .low, trace := s.trace ++ [⟨s.t, .low⟩] }

/-- R75, R106, R107, R112, R120: the micro-programs of the two pulses and of the latch, as instructions and as the words of
a micro-op trace; both pulses use the same micro-ops, in another order (R109). -/
def Obligations.MicroPrograms : Prop :=
  pulseFor true = [.driveHigh, .delayLong, .driveLow, .delayShort, .delayTrim] ∧
    pulseFor false = [.driveHigh, .delayShort, .driveLow, .delayLong, .delayTrim] ∧
    latchProgram = [.driveLow, .holdLatch] ∧
    (pulseFor true).map encode = [0x10000000#32, 0x20000000#32, 0x11000000#32, 0x21000000#32, 0x22000000#32] ∧
    (pulseFor false).map encode = [0x10000000#32, 0x21000000#32, 0x11000000#32, 0x20000000#32, 0x22000000#32] ∧
    latchProgram.map encode = [0x11000000#32, 0x23000000#32] ∧
    (pulseFor true).Perm (pulseFor false)

/-- R106, R107, R108, R118: one undisturbed pulse. From the start of a pulse, five steps of an instance perform it: one
rise at the present time, one fall a high phase later, the time of the whole pulse, and the position at the next pulse or,
after pulse 23, IDLE (R119). Nothing else changes but the micro-op trace (R75) and the model's own counter of
draws, which numbers the three draws (DESIGN CHOICE, log entry 5); that SEQ stays as the WRITE completes is the model's choice
(log entry 19). -/
def Obligations.OnePulseRun : Prop :=
  ∀ (p : Params) (s : State), s.engState = .emitting → s.bitIdx.toNat < 24 → s.phase = 0 → s.undisturbed = true →
    runOn p 5 s = .next
      { s with
        engState := if s.bitIdx.toNat = 23 then .idle else .emitting
        bitIdx := s.bitIdx + 1
        phase := 0
        pin := .low
        draws := s.draws + 3
        microTrace := s.microTrace ++ (pulseFor (s.seq.getLsbD s.bitIdx.toNat)).map encode
        trace := s.trace ++
          [⟨s.t, .high⟩,
            ⟨s.t + p.dDrv +
              (if s.seq.getLsbD s.bitIdx.toNat then p.long.draw s.draws else p.short.draw s.draws), .low⟩]
        t := s.t + p.dDrv +
          (if s.seq.getLsbD s.bitIdx.toNat then p.long.draw s.draws else p.short.draw s.draws) + p.dDrv +
          (if s.seq.getLsbD s.bitIdx.toNat then p.short.draw (s.draws + 1) else p.long.draw (s.draws + 1)) +
          p.trim.draw (s.draws + 2) }

/-- R109: where no delay primitive deviates (`TOL_x = 0`), every undisturbed pulse takes `2·D_DRV + 1250` ns, whatever its
bit and whatever `D_DRV`. -/
def Obligations.EqualPulsePeriod : Prop :=
  ∀ (p : Params) (s u : State), p.long.tol = 0 → p.short.tol = 0 → p.trim.tol = 0 →
    s.engState = .emitting → s.bitIdx.toNat < 24 → s.phase = 0 → s.undisturbed = true →
    runOn p 5 s = .next u → u.t - s.t = 2 * p.dDrv + 1250

/-! ## The commands -/

/-- R115, R116: `NEW` with an implemented policy, in a state that is not bound and accepts a command, completes: it binds
the policy, enters IDLE, takes its word, and changes nothing else, neither PIN nor TRACE nor `t`; that SEQ, BIT_IDX and PHASE,
which no rule reads then, stay is the model's choice (log entry 19). BRG (code `00`) is
implemented on every instance (R3, R60). -/
def Obligations.NewCompletes : Prop :=
  (∀ (pol : BitVec 2) (q : Policy) (s : State), s.accepting = true → s.bound = false →
      policyOf Config.params.hasExtraPolicies pol = some q →
      exec (.new pol) s =
        .next { s with policy := some q, bound := true, engState := .idle, hostIdx := s.hostIdx + 1 }) ∧
    policyOf Config.params.hasExtraPolicies 0 = some .brg

/-- R86, R116, R152, R153: `NEW` with a code that names no implemented policy takes BAD_POLICY, bound or not; with an
implemented one in a bound state it takes ALREADY_BOUND. Code `11` names none on any instance, `01` and `10` none without
HAS_EXTRA_POLICIES. -/
def Obligations.NewFaults : Prop :=
  (∀ (pol : BitVec 2) (s : State), s.accepting = true →
      policyOf Config.params.hasExtraPolicies pol = none →
      exec (.new pol) s = .next (s.takeWord.raiseFault .badPolicy)) ∧
    (∀ (pol : BitVec 2) (q : Policy) (s : State), s.accepting = true → s.bound = true →
      policyOf Config.params.hasExtraPolicies pol = some q →
      exec (.new pol) s = .next (s.takeWord.raiseFault .alreadyBound)) ∧
    (∀ hasExtra : Bool, policyOf hasExtra 3 = none) ∧ policyOf false 1 = none ∧ policyOf false 2 = none ∧
    policyOf true 1 = some .rgb ∧ policyOf true 2 = some .grb

/-- R115, R117: `WRITE` in a bound state that accepts a command completes its acceptance: SEQ is the colour's sequence under
the bound policy (R84), the position is the start of the first pulse, ENGINE is EMITTING, the word is taken, and nothing
else changes. -/
def Obligations.WriteCompletes : Prop :=
  ∀ (r g b : Channel) (q : Policy) (s : State), s.accepting = true → s.bound = true → s.policy = some q →
    exec (.write r g b) s =
      .next { s with
        seq := bitsFor q ⟨r, g, b⟩
        bitIdx := 0
        phase := 0
        engState := .emitting
        hostIdx := s.hostIdx + 1 }

/-- R115, R120: `END_FRAME` in a bound state that accepts a command completes its acceptance: ENGINE is LATCHING at the
start of the micro-program, the word is taken, and nothing else changes; that SEQ and BIT_IDX, which no rule reads then, stay
is the model's choice (log entry 19). -/
def Obligations.EndFrameCompletes : Prop :=
  ∀ s : State, s.accepting = true → s.bound = true →
    exec .endFrame s = .next { s with engState := .latching, phase := 0, hostIdx := s.hostIdx + 1 }

/-- R152, R153: `WRITE` and `END_FRAME` in a state that is not bound take NOT_BOUND, code `0x04`. -/
def Obligations.NotBoundFaults : Prop :=
  (∀ (r g b : Channel) (s : State), s.accepting = true → s.bound = false →
      exec (.write r g b) s = .next (s.takeWord.raiseFault .notBound)) ∧
    (∀ s : State, s.accepting = true → s.bound = false →
      exec .endFrame s = .next (s.takeWord.raiseFault .notBound)) ∧
    faultCodeOf .notBound = 0x04#8

/-- R154: the command-fault action keeps the first code, makes ENGINE FAULTED and changes nothing else; and the fault is
precise: whatever word HOST issues, if ENGINE is then FAULTED, that action and the taking of the word (R115) are all that
happened. -/
def Obligations.FaultAction : Prop :=
  (∀ (c : FaultCode) (s : State),
    s.raiseFault c =
      { s with faultCode := if s.faultCode = .noFault then c else s.faultCode, engState := .faulted }) ∧
    ∀ (s u : State) (w : Word), s.accepting = true → issueWord exec w s = .next u → u.engState = .faulted →
      ∃ c, c ≠ .noFault ∧ u = s.takeWord.raiseFault c

/-- R131: in FAULTED HOST's issue takes any word, legal or not, and has no other effect. -/
def Obligations.FaultedIgnoresWords : Prop :=
  (∀ (s : State) (w : Word), s.engState = .faulted → issueWord exec w s = .next { s with hostIdx := s.hostIdx + 1 }) ∧
    ∀ (s : State) (i : Instr), s.engState = .faulted → i.isCommand = true →
      exec i s = .next { s with hostIdx := s.hostIdx + 1 }

/-- R155: FAULTED and its code last through every step but a reset. -/
def Obligations.FaultedIsSticky : Prop :=
  ∀ s u : State, s.engState = .faulted → step s = .next u →
    (u.engState = .faulted ∧ u.faultCode = s.faultCode ∧ u.pin = s.pin ∧ u.trace = s.trace ∧
      u.microTrace = s.microTrace ∧ u.bound = s.bound ∧ u.policy = s.policy ∧ u.tv = s.tv) ∨
    s.ResetTo u

/-- R115, R153: HOST's issue of a word in UNBOUND or IDLE, check by check in the rule's order; the rule's example, where
RESERVED_NONZERO comes before BAD_POLICY. -/
def Obligations.OrderOfChecks : Prop :=
  (∀ (s : State) (w : Word), s.accepting = true →
    issueWord exec w s =
      match decodeCommand Config.params.hasExtraPolicies w with
      | .error c => .next (s.takeWord.raiseFault c)
      | .ok (.new pol) =>
        if s.bound = true then .next (s.takeWord.raiseFault .alreadyBound) else exec (.new pol) s
      | .ok (.write r g b) =>
        if s.bound = false then .next (s.takeWord.raiseFault .notBound) else exec (.write r g b) s
      | .ok .endFrame => if s.bound = false then .next (s.takeWord.raiseFault .notBound) else exec .endFrame s
      | .ok i => exec i s) ∧
    ∀ s : State, s.accepting = true →
      issueWord exec 0x01000007#32 s = .next (s.takeWord.raiseFault .reservedNonzero)

/-! ## The step -/

/-- A step of HOST's issues HOST's next word, whatever the word and whatever the state in which HOST is not held (R115): by
its schedule, or by default (log entry 6), the step is the issue of that word. Where the word decodes to a command that is
checked, that is `exec` of the command. -/
def Obligations.StepRunsCommand : Prop :=
  (∀ (s : State) (w : Word), s.running = false → s.schedule = [] → s.nextWord = some w →
      step s = issueWord exec w s) ∧
    (∀ (s : State) (w : Word) (rest : List Move), s.running = false → s.schedule = .issue :: rest →
      s.nextWord = some w → step s = issueWord exec w { s with schedule := rest }) ∧
    (∀ (s : State) (w : Word) (i : Instr), s.accepting = true → s.schedule = [] → s.nextWord = some w →
      decodeCommand Config.params.hasExtraPolicies w = .ok i → step s = exec i s) ∧
    ∀ (s : State) (w : Word) (i : Instr) (rest : List Move), s.accepting = true → s.schedule = .issue :: rest →
      s.nextWord = some w → decodeCommand Config.params.hasExtraPolicies w = .ok i →
      step s = exec i { s with schedule := rest }

/-- A step of ENGINE's runs the selected micro-op (R128): `exec` of it, then the recording of its word (R75), then the
advance of the position (log entry 12); `exec` of a selected micro-op always gives a next state. The same where the
schedule asks for the micro-op, as it does before a later stall or reset (log entry 6): the request alone is used up. -/
def Obligations.StepRunsMicroOp : Prop :=
  (∀ (s : State) (i : Instr), s.running = true → s.undisturbed = true → s.selectedMicroOp = some i →
    ∃ u, exec i s = .next u ∧
      step s = .next (State.advancePosition { u with microTrace := u.microTrace ++ [encode i] })) ∧
    ∀ (s : State) (i : Instr) (rest : List Move), s.running = true → s.schedule = .microOp :: rest →
      s.selectedMicroOp = some i →
      ∃ u, exec i { s with schedule := rest } = .next u ∧ u.schedule = rest ∧
        step s = .next (State.advancePosition { u with microTrace := u.microTrace ++ [encode i] })

/-- R106, R107, R118, R120, R128: the micro-op a position selects, and the position after it. That SEQ, BIT_IDX and PHASE
stay as they then are, in states whose rules do not read them, is the model's choice (log entry 19). -/
def Obligations.SequencerPosition : Prop :=
  (∀ s : State, s.engState = .emitting → s.bitIdx.toNat < 24 →
      s.selectedMicroOp =
        (if s.seq.getLsbD s.bitIdx.toNat then
          [Instr.driveHigh, .delayLong, .driveLow, .delayShort, .delayTrim]
        else [Instr.driveHigh, .delayShort, .driveLow, .delayLong, .delayTrim])[s.phase.toNat]?) ∧
    (∀ s : State, s.engState = .latching → s.selectedMicroOp = [Instr.driveLow, .holdLatch][s.phase.toNat]?) ∧
    (∀ s : State, s.engState = .emitting → s.phase.toNat < 4 → s.advancePosition = { s with phase := s.phase + 1 }) ∧
    (∀ s : State, s.engState = .emitting → s.phase = 4 → s.bitIdx.toNat < 23 →
      s.advancePosition = { s with phase := 0, bitIdx := s.bitIdx + 1 }) ∧
    (∀ s : State, s.engState = .emitting → s.phase = 4 → s.bitIdx = 23 →
      s.advancePosition = { s with phase := 0, bitIdx := 24, engState := .idle }) ∧
    (∀ s : State, s.engState = .latching → s.phase = 0 → s.advancePosition = { s with phase := 1 }) ∧
    (∀ s : State, s.engState = .latching → s.phase = 1 →
      s.advancePosition = { s with phase := 0, engState := .idle }) ∧
    ∀ s : State, s.running = false → s.selectedMicroOp = none ∧ s.advancePosition = s

/-- R115: while ENGINE runs a command HOST is held. Whatever is scheduled, a step that is no reset takes no word: HOST_IDX
stays, the stream stays, and the command goes on or completes (R118, R120). It writes neither the binding (R24, R84) nor
FAULT_CODE (R161), nor SEQ: while EMITTING because `WRITE` writes it once, at acceptance (R27), and as the command completes
and in LATCHING by the model's choice (log entry 19). And it takes no gap: a `gap` or `issue` at the front of the schedule
waits there (log entry 6). -/
def Obligations.HostIsHeld : Prop :=
  (∀ s u : State, s.running = true → step s = .next u →
    (u.hostIdx = s.hostIdx ∧ u.stream = s.stream ∧ u.bound = s.bound ∧ u.policy = s.policy ∧ u.seq = s.seq ∧
      u.faultCode = s.faultCode ∧ (u.engState = s.engState ∨ u.engState = .idle)) ∨
    s.ResetTo u) ∧
    (∀ (s u : State) (g : Ns) (rest : List Move), s.running = true → 0 ≤ g → s.schedule = .gap g :: rest →
      step s = .next u → u.schedule = .gap g :: rest) ∧
    ∀ (s u : State) (rest : List Move), s.running = true → s.schedule = .issue :: rest → step s = .next u →
      u.schedule = .issue :: rest

/-- R115 (a): HOST's gap between commands only lets time pass. That it stands in the schedule is the model's form of HOST's
choice (log entry 6). -/
def Obligations.GapOnlyAdvancesTime : Prop :=
  ∀ (s : State) (g : Ns) (rest : List Move), s.running = false → s.schedule = .gap g :: rest → 0 ≤ g →
    step s = .next { s with t := s.t + g, schedule := rest }

/-- R134: with no command running, nothing scheduled and no further word, the run has ended and no agent has a step; that the
model then answers this stop is its own form of a run's end (log entry 3). -/
def Obligations.RunEnds : Prop :=
  ∀ s : State, s.running = false → s.schedule = [] → s.nextWord = none → step s = .fault .streamExhausted

/-- R118, R119, R129, R130: an undisturbed `WRITE`, from its acceptance. It performs exactly its 120 micro-ops in order,
stays EMITTING until the last, and ends IDLE with the pin low, 48 events later, after a time within the tolerances of
`24·(2·D_DRV + 1250)`; HOST's position, the flags and the binding are as they were; so is SEQ, which no rule reads
then (the model's choice: log entry 19). -/
def Obligations.WriteRun : Prop :=
  ∀ (p : Params) (s : State), s.engState = .emitting → s.bitIdx = 0 → s.phase = 0 → s.undisturbed = true →
    (∃ u, runOn p 120 s = .next u ∧ u.engState = .idle ∧ u.pin = .low ∧
      u.microTrace = s.microTrace ++ (writeProgram s.seq).map encode ∧
      u.trace.length = s.trace.length + 48 ∧ u.hostIdx = s.hostIdx ∧ u.stream = s.stream ∧
      u.schedule = s.schedule ∧ u.faultCode = s.faultCode ∧ u.tv = s.tv ∧ u.bound = s.bound ∧
      u.policy = s.policy ∧ u.seq = s.seq ∧
      24 * (2 * p.dDrv + 1250 - p.long.tol - p.short.tol - p.trim.tol) ≤ u.t - s.t ∧
      u.t - s.t ≤ 24 * (2 * p.dDrv + 1250 + p.long.tol + p.short.tol + p.trim.tol)) ∧
    ∀ k, k < 120 → ∃ v, runOn p k s = .next v ∧ v.engState = .emitting

/-- R8, R118, R130, R185: in the nominal model an undisturbed `WRITE` puts a rise every 1250 ns, each followed by its fall
after 800 ns for a one and 400 ns for a zero, and lasts 30 000 ns. -/
def Obligations.NominalWriteWaveform : Prop :=
  ∀ (p : Params) (s : State), p.IsNominal → s.engState = .emitting → s.bitIdx = 0 → s.phase = 0 →
    s.undisturbed = true →
    ∃ u, runOn p 120 s = .next u ∧ u.t = s.t + 30000 ∧
      u.trace = s.trace ++ (List.range 24).flatMap fun k =>
        [⟨s.t + 1250 * (k : Rat), .high⟩,
          ⟨s.t + 1250 * (k : Rat) + (if s.seq.getLsbD k then 800 else 400), .low⟩]

/-- R120, R121, R130: an undisturbed `END_FRAME`, from its acceptance and from any pin level. It ends IDLE after
`D_DRV + D_LATCH`, at least 300 000 ns, and the waveform is low from its one event to the end. -/
def Obligations.EndFrameRun : Prop :=
  ∀ (p : Params) (s : State), s.engState = .latching → s.phase = 0 → s.undisturbed = true → 0 ≤ s.t →
    ∃ u, runOn p 2 s = .next u ∧ u.engState = .idle ∧ u.pin = .low ∧ u.trace = s.trace ++ [⟨s.t, .low⟩] ∧
      u.microTrace = s.microTrace ++ [0x11000000#32, 0x23000000#32] ∧
      u.t = s.t + p.dDrv + p.dLatch ∧ 300000 ≤ u.t - s.t ∧ u.hostIdx = s.hostIdx ∧ u.tv = s.tv ∧
      u.faultCode = s.faultCode ∧ ∀ τ, s.t ≤ τ → τ ≤ u.t → waveAt u.trace u.t τ = some .low

/-! ## Stalls, flags and reset -/

/-- R97, R162, R163: with PREEMPTION a scheduled stall of positive length while ENGINE runs a command, between two micro-ops,
advances time by its length, sets TV in EMITTING and no flag in LATCHING, and changes nothing else. A micro-op has been
performed where the position is past the command's start or TRACE is not empty (log entry 10). Before the first micro-op of
all there is no stall, nor in a state that runs no command, nor one of no length, nor any without
PREEMPTION: the step is the one without it (log entry 6). -/
def Obligations.StallEffects : Prop :=
  (∀ (p : Params) (s : State) (d : Ns) (rest : List Move), p.preemption = true → 0 < d →
      s.schedule = .stall d :: rest → s.engState = .emitting → (s.bitIdx ≠ 0 ∨ s.phase ≠ 0 ∨ s.trace ≠ []) →
      stepOn p s = .next { s with t := s.t + d, tv := true, schedule := rest }) ∧
    (∀ (p : Params) (s : State) (d : Ns) (rest : List Move), p.preemption = true → 0 < d →
      s.schedule = .stall d :: rest → s.engState = .latching → (s.phase ≠ 0 ∨ s.trace ≠ []) →
      stepOn p s = .next { s with t := s.t + d, schedule := rest }) ∧
    ∀ (p : Params) (s : State) (d : Ns) (rest : List Move), s.schedule = .stall d :: rest →
      (p.preemption = false ∨ d ≤ 0 ∨ s.running = false ∨
        (s.phase = 0 ∧ (s.engState = .emitting → s.bitIdx = 0) ∧ s.trace = [])) →
      stepOn p s = stepOn p { s with schedule := rest }

/-- R30, R31, R157, R163: no step but a reset clears TV or FAULT_CODE or changes a code once set, and TV is set only by a
stall between two micro-ops in EMITTING on an instance with PREEMPTION. -/
def Obligations.FlagsAreSticky : Prop :=
  ∀ (p : Params) (s u : State), stepOn p s = .next u →
    ((s.tv = true → u.tv = true) ∧ (s.faultCode ≠ .noFault → u.faultCode = s.faultCode) ∧
      (u.tv = true → s.tv = true ∨
        (s.engState = .emitting ∧ s.betweenMicroOps = true ∧ p.preemption = true ∧
          ∃ d, 0 < d ∧ .stall d ∈ s.schedule ∧ u.t = s.t + d))) ∨
    s.ResetTo u

/-- R171, R173: a reset takes effect in every state, running or not: every element of R38 returns to its value in
State.reset, which for SEQ, BIT_IDX and PHASE, to which R38 gives none, is the model's choice (log entry 1). The micro-op
trace, no element of R38, is emptied with TRACE (DESIGN CHOICE, log entry 14); HOST's stream, its coming moves and the draw
counter stay (log entry 7). -/
def Obligations.ResetTakesEffectAnywhere : Prop :=
  ∀ (s : State) (rest : List Move), s.schedule = .reset :: rest →
    step s = .next { State.reset with stream := s.stream, schedule := rest, draws := s.draws }

/-- R36, R38: the values the spec gives for reset, and STATUS after reset. -/
def Obligations.ResetValues : Prop :=
  State.reset.engState = .unbound ∧ State.reset.bound = false ∧ State.reset.policy = none ∧
    State.reset.pin = .unknown ∧ State.reset.faultCode = .noFault ∧ State.reset.tv = false ∧ State.reset.t = 0 ∧
    State.reset.trace = [] ∧ State.reset.hostIdx = 0 ∧ State.reset.status = 0x00000080#32

/-- R36: STATUS field by field, with the codes of R23, R25 and R152. -/
def Obligations.StatusFields : Prop :=
  ∀ s : State,
    s.status.extractLsb' 0 3 = (match s.engState with
      | .unbound => 0#3 | .idle => 1#3 | .emitting => 2#3 | .latching => 3#3 | .faulted => 4#3) ∧
    s.status.extractLsb' 3 1 = BitVec.ofBool s.bound ∧
    (s.bound = false → s.status.extractLsb' 4 2 = 0#2) ∧
    (∀ q, s.bound = true → s.policy = some q → s.status.extractLsb' 4 2 = (match q with
      | .brg => 0#2 | .rgb => 1#2 | .grb => 2#2)) ∧
    s.status.extractLsb' 6 2 = (match s.pin with | .low => 0#2 | .high => 1#2 | .unknown => 2#2) ∧
    s.status.extractLsb' 8 1 = BitVec.ofBool s.tv ∧
    s.status.extractLsb' 9 7 = 0#7 ∧
    s.status.extractLsb' 16 8 = (match s.faultCode with
      | .noFault => 0x00#8 | .illegalOpcode => 0x01#8 | .reservedNonzero => 0x02#8 | .badPolicy => 0x03#8
      | .notBound => 0x04#8 | .alreadyBound => 0x05#8) ∧
    s.status.extractLsb' 24 5 = (if s.engState = .emitting then s.bitIdx else 0#5) ∧
    s.status.extractLsb' 29 3 = (if s.engState = .emitting ∨ s.engState = .latching then s.phase else 0#3) ∧
    State.reset.status = 0x00000080#32

/-! ## Every step of the machine -/

/-- The invariant holds after reset with any command stream and any coming moves, on every instance. -/
def Obligations.InvariantAtReset : Prop :=
  (∀ p : Params, State.reset.Inv p) ∧
    ∀ (p : Params) (ws : List Word) (moves : List Move), (State.withProgram ws moves).Inv p

/-- R20 to R38, R86, R121, R138: the invariant of Safety.lean is kept by every step from every state that has it: of every
instance, and of the machine. -/
def Obligations.StepKeepsInvariant : Prop :=
  (∀ (p : Params) (s u : State), s.Inv p → stepOn p s = .next u → u.Inv p) ∧
    ∀ s u : State, s.Inv Config.params → step s = .next u → u.Inv Config.params

/-- R25: from a state with the invariant, a step leaves ENG_STATE as it is, makes a transition the rule lists, or is a
reset, which leads to UNBOUND. -/
def Obligations.OnlyLegalTransitions : Prop :=
  ∀ s u : State, s.Inv Config.params → step s = .next u →
    u.engState = s.engState ∨ legalTransition s.engState u.engState = true ∨
      s.ResetTo u

/-- R128, R134: from a state with the invariant a step gives a next state, unless the run has ended. -/
def Obligations.StepsUntilTheEnd : Prop :=
  ∀ s : State, s.Inv Config.params →
    (∃ u, step s = .next u) ∨ (step s = .fault .streamExhausted ∧ s.ended = true)

/-- R23, R24, R84: once ENGINE is bound, no step but a reset changes BOUND or POLICY, and only HOST's issue of a `NEW` whose
code names an implemented policy sets BOUND; BOUND is 0 at reset. -/
def Obligations.BindingIsForLife : Prop :=
  (∀ s u : State, s.bound = true → step s = .next u →
    (u.bound = true ∧ u.policy = s.policy) ∨
      s.ResetTo u) ∧
    (∀ s u : State, s.bound = false → step s = .next u → u.bound = true →
      ∃ (w : Word) (pol : BitVec 2) (q : Policy), s.nextWord = some w ∧ decode w = .ok (.new pol) ∧
        policyOf Config.params.hasExtraPolicies pol = some q ∧ u.policy = some q ∧ u.engState = .idle) ∧
    State.reset.bound = false

/-- R34, R35, R50: no step but a reset turns time back, or removes or reorders an event of TRACE. The same of a micro-op in the
micro-op trace (R75, R168), which the model holds in its state (log entry 14), and of the model's own counter of draws, which
never falls (DESIGN CHOICE, log entry 5). -/
def Obligations.TimeAndTraceOnlyGrow : Prop :=
  ∀ s u : State, step s = .next u →
    (s.t ≤ u.t ∧ s.trace <+: u.trace ∧ s.microTrace <+: u.microTrace ∧ s.draws ≤ u.draws) ∨
      s.ResetTo u

/-- R26, R35, R49, R55: the pin and TRACE change together and only by a drive that ENGINE's position selects; no step but a
reset makes the pin UNKNOWN again. -/
def Obligations.OnlyDrivesMoveThePin : Prop :=
  ∀ s u : State, step s = .next u →
    (u.pin = s.pin ∧ u.trace = s.trace) ∨
      (s.selectedMicroOp = some .driveHigh ∧ u.pin = .high ∧ u.trace = s.trace ++ [⟨s.t, .high⟩]) ∨
      (s.selectedMicroOp = some .driveLow ∧ u.pin = .low ∧ u.trace = s.trace ++ [⟨s.t, .low⟩]) ∨
      s.ResetTo u

/-- R22, R53, R192: no step changes HOST's stream, and HOST_IDX stays or goes up by one, or returns to 0 by a reset. -/
def Obligations.StreamIsReadInOrder : Prop :=
  ∀ s u : State, step s = .next u →
    u.stream = s.stream ∧
      (u.hostIdx = s.hostIdx ∨ (s.running = false ∧ u.hostIdx = s.hostIdx + 1) ∨
        s.ResetTo u)

/-! ## The wire -/

/-- R105, R138: the waveform holds each event's level until the next event, the last event's to the end, and is UNKNOWN
before the first. -/
def Obligations.LevelPersists : Prop :=
  (∀ (pre post : List PinEvent) (e : PinEvent) (tEnd τ : Ns),
      0 ≤ τ → τ ≤ tEnd → e.time ≤ τ → (∀ f ∈ post, τ < f.time) → waveAt (pre ++ e :: post) tEnd τ = some e.level.toPin) ∧
    ∀ (tr : List PinEvent) (tEnd τ : Ns), 0 ≤ τ → τ ≤ tEnd → (∀ f ∈ tr, τ < f.time) →
      waveAt tr tEnd τ = some .unknown

/-- R139: `SEGMENTS(W)`, whatever the level before the first event (R26). Its segments have a positive length and
neighbours differ in level, so each is maximal; where the events' times do not fall and the run ends no earlier, they follow
on one another, fill the time from 0 to the end, and have the waveform's level at each of their times. R141 (log entry 9):
the same, from the first event on, of the segments as the decoder measures them. -/
def Obligations.SegmentsAreMaximal : Prop :=
  (∀ (before : Pin) (tr : List PinEvent) (tEnd : Ns), (∀ x ∈ segments before tr tEnd, 0 < x.dur) ∧
      (segments before tr tEnd).IsChain fun x y => x.level ≠ y.level) ∧
    (∀ (before : Pin) (tr : List PinEvent) (tEnd : Ns), tr.Pairwise (fun e f => e.time ≤ f.time) →
      (∀ e ∈ tr, 0 ≤ e.time ∧ e.time ≤ tEnd) → 0 ≤ tEnd →
      ((segments before tr tEnd).map Segment.dur).sum = tEnd ∧
        (∀ x, (segments before tr tEnd).head? = some x → x.start = 0) ∧
        (segments before tr tEnd).IsChain (fun x y => y.start = x.start + x.dur) ∧
        (∀ x ∈ segments .unknown tr tEnd, ∀ τ, x.start ≤ τ → τ < x.start + x.dur →
          waveAt tr tEnd τ = some x.level) ∧
        ∀ (d : Level), ∀ x ∈ segments d.toPin tr tEnd, ∀ τ, x.start ≤ τ → τ < x.start + x.dur →
          waveDrawnAt d tr tEnd τ = some x.level) ∧
    (∀ (tr : List PinEvent) (tEnd : Ns), (∀ x ∈ drivenSegments tr tEnd, 0 < x.dur) ∧
      (drivenSegments tr tEnd).IsChain fun x y => x.level ≠ y.level) ∧
    ∀ (tr : List PinEvent) (tEnd : Ns), tr.Pairwise (fun e f => e.time ≤ f.time) → (∀ e ∈ tr, e.time ≤ tEnd) →
      ((drivenSegments tr tEnd).map Segment.dur).sum = tEnd - firstEventTime tr tEnd ∧
        (∀ x, (drivenSegments tr tEnd).head? = some x → x.start = firstEventTime tr tEnd) ∧
        (drivenSegments tr tEnd).IsChain (fun x y => y.start = x.start + x.dur) ∧
        ((∀ e ∈ tr, 0 ≤ e.time) → ∀ x ∈ drivenSegments tr tEnd, ∀ τ, x.start ≤ τ → τ < x.start + x.dur →
          waveAt tr tEnd τ = some x.level)

/-- R146: a waveform with no latch decodes to nothing, whatever its pulses are, as long as it does not end high (R143 b). -/
def Obligations.NothingBeforeTheFirstLatch : Prop :=
  ∀ (tolRx : Ns) (tr : List PinEvent) (tEnd : Ns), (∀ x ∈ drivenSegments tr tEnd, x.isLatch = false) →
    decodeWire tolRx tr tEnd = if endsHigh (drivenSegments tr tEnd) then .malformed else .decoded [] []

/-- R145 (the spec's own derivation): the bits of `N` colour words in transmission order read back as those words. -/
def Obligations.ColourWordsReadBack : Prop :=
  ∀ words : List ColourWord, colourWords words.length (words.flatMap sequenceOf) = words

/-- R140, R142: with `TOL_RX` in its range no high duration belongs to both classes, and what the classifier answers is what
the rule says: a one, a zero, and MALFORMED in every other case. -/
def Obligations.PulseClassification : Prop :=
  (∀ tolRx h : Ns, 0 ≤ tolRx → tolRx < 200 → ¬(within tolRx 800 h = true ∧ within tolRx 400 h = true)) ∧
    (∀ tolRx n x : Ns, within tolRx n x = true ↔ |x - n| ≤ tolRx) ∧
    ∀ tolRx h l : Ns, 0 ≤ tolRx → tolRx < 200 →
      (classifyPulse tolRx h l = none ↔
          ¬(|h - 800| ≤ tolRx ∧ (|l - 450| ≤ tolRx ∨ 300000 ≤ l)) ∧
            ¬(|h - 400| ≤ tolRx ∧ (|l - 850| ≤ tolRx ∨ 300000 ≤ l))) ∧
      (classifyPulse tolRx h l = some true ↔ |h - 800| ≤ tolRx ∧ (|l - 450| ≤ tolRx ∨ 300000 ≤ l)) ∧
        (classifyPulse tolRx h l = some false ↔ |h - 400| ≤ tolRx ∧ (|l - 850| ≤ tolRx ∨ 300000 ≤ l))

/-- R149 (the spec's own derivation): on every instance that satisfies the rule's tolerance condition, the nominal model
with any TOL_RX among them, the run `NEW pol; END_FRAME; WRITE c_1; ...; WRITE c_N; END_FRAME` with no stall ends with
FAULT_CODE clear, and the reference wire decoder returns exactly one frame, the colours' sequences in order, and nothing
pending. HOST leaves any gaps before `NEW`, around the first `END_FRAME`, and before and after the last (`a`, `b`, `h 0`,
`c`, `d`); a gap `h k` between two `WRITE`s is 0, or is within the low phase's tolerance (R178). With nothing scheduled
every gap is 0 (log entry 6). -/
def Obligations.DecodingTheorem : Prop :=
  ∀ (p : Params) (pol : BitVec 2) (q : Policy) (cs : List Colour) (moves : List Move), cs ≠ [] →
    policyOf p.hasExtraPolicies pol = some q →
    p.dDrv + p.long.tol ≤ p.tolRx → p.dDrv + p.short.tol ≤ p.tolRx →
    p.dDrv + p.short.tol + p.trim.tol ≤ p.tolRx → p.dDrv + p.long.tol + p.trim.tol ≤ p.tolRx →
    (moves = [] ∨ ∃ (a b c d : Ns) (h : Nat → Ns), 0 ≤ a ∧ 0 ≤ b ∧ 0 ≤ c ∧ 0 ≤ d ∧ (∀ k, 0 ≤ h k) ∧
      (∀ k, 0 < k → p.dDrv + p.short.tol + p.trim.tol + h k ≤ p.tolRx ∧
        p.dDrv + p.long.tol + p.trim.tol + h k ≤ p.tolRx) ∧
      moves = [.gap a, .issue, .gap b, .issue] ++
        (List.range cs.length).flatMap (fun k => [.gap (h k), .issue]) ++ [.gap c, .issue, .gap d]) →
    ∃ (k : Nat) (u : State),
      runOn p k (State.withProgram
        (encode (.new pol) :: encode .endFrame ::
          (cs.map fun c => encode (.write c.r c.g c.b)) ++ [encode .endFrame]) moves) = .next u ∧
      u.ended = true ∧ u.schedule = [] ∧ u.good = true ∧ u.engState = .idle ∧
      decodeWire p.tolRx u.trace u.t = .decoded [cs.map (bitsFor q)] []

/-! ## The assembler -/

/-- R70, R72, R73, R74: the words of the three commands, of the command pseudo-instructions, and of the micro-program
pseudo-ops and the delay primitives' aliases, from their text; the error of an operand outside 0..255; and that a micro-op
or a micro-program pseudo-op is no line of a HOST program, which rests on the model's two readers of text (DESIGN CHOICE, log
entry 16). -/
def Obligations.AssemblerWords : Prop :=
  (∀ q : Policy, assembleCommand (.new q) = .ok [0x01000000#32 ||| (policyCode q).setWidth 32]) ∧
    (∀ r g b : Nat, r < 256 → g < 256 → b < 256 →
      assembleCommand (.write r g b) =
        .ok [0x02000000#32 ||| (BitVec.ofNat 32 r <<< 16) ||| (BitVec.ofNat 32 g <<< 8) ||| BitVec.ofNat 32 b]) ∧
    (∀ r g b : Nat, 256 ≤ r ∨ 256 ≤ g ∨ 256 ≤ b → assembleCommand (.write r g b) = .error .operandRange) ∧
    assembleCommand .endFrame = .ok [0x03000000#32] ∧ assembleCommand .latch = .ok [0x03000000#32] ∧
    assembleCommand .wait = .ok [0x03000000#32] ∧
    (∀ n : Nat, 1 ≤ n → assembleCommand (.blank n) = .ok (List.replicate n 0x02000000#32 ++ [0x03000000#32])) ∧
    (∀ cs : List Colour, cs ≠ [] →
      assembleCommand (.frame (cs.map fun c => (c.r.toNat, c.g.toNat, c.b.toNat))) =
        .ok ((cs.map fun c => encode (.write c.r c.g c.b)) ++ [encode .endFrame])) ∧
    assembleMicroLine ['P', 'U', 'L', 'S', 'E', '1'] =
      .ok ([Instr.driveHigh, .delayLong, .driveLow, .delayShort, .delayTrim].map encode) ∧
    assembleMicroLine ['P', 'U', 'L', 'S', 'E', '0'] =
      .ok ([Instr.driveHigh, .delayShort, .driveLow, .delayLong, .delayTrim].map encode) ∧
    assembleMicroLine ['D', 'E', 'L', 'A', 'Y', '_', '8', '0', '0'] = .ok [encode .delayLong] ∧
    assembleMicroLine ['D', 'E', 'L', 'A', 'Y', '_', '4', '0', '0'] = .ok [encode .delayShort] ∧
    assembleMicroLine ['D', 'E', 'L', 'A', 'Y', '_', '5', '0'] = .ok [encode .delayTrim] ∧
    (∀ m : List Char, (parseMicro m).isSome = true → assembleLine m = .error .badSyntax)

/-! ## Gaps -/

/-- R115 (a), R178, R190: HOST's gaps before an issue add up, whatever their number and length: each is a step that only lets
time pass, so their sum is the idle time before that command is taken, and it is the gap that HOST's duty inside a frame
reads (`gapBefore`, `frameGapsWithin`). The duty bounds it by GAP_MAX where the command is a `WRITE` that follows a `WRITE`,
and bounds no other gap. -/
def Obligations.GapsAddUp : Prop :=
  (∀ (p : Params) (s : State) (gaps : List Ns) (rest : List Move), s.running = false → (∀ g ∈ gaps, 0 ≤ g) →
      s.schedule = gaps.map Move.gap ++ .issue :: rest →
      runOn p gaps.length s = .next { s with t := s.t + gaps.sum, schedule := .issue :: rest } ∧
        gapBefore s.schedule 0 = gaps.sum ∧ ∀ k, gapBefore s.schedule (k + 1) = gapBefore rest k) ∧
    ∀ (p : Params) (cmds : List Instr) (moves : List Move),
      frameGapsWithin p cmds moves = true ↔
        ∀ k, (∃ r g b r' g' b', cmds[k]? = some (.write r g b) ∧ cmds[k + 1]? = some (.write r' g' b')) →
          gapBefore moves (k + 1) ≤ p.gapMax
end

