-- ==== Sys2Proof/Laws/Config.lean ====
section
/-!
SUPPORT. The machine's parameters: `Params.ofRaw` excludes nothing that 00_scope.md R7 allows, and what the nominal model
(R8) gives.
-/
namespace Sys2Proof

theorem atLeast_of_ge {lo x : Rat} (h : lo ≤ x) : atLeast lo x = x := by
  simp [atLeast, h]

theorem boundedDraw_of_bounds {nominal tol x : Ns} (h1 : nominal - tol ≤ x) (h2 : x ≤ nominal + tol) (h3 : 0 < x) :
    boundedDraw nominal tol x = x := by
  unfold boundedDraw
  rw [if_pos ⟨h1, h2, h3⟩]

/-- Every delay primitive is the bounded form of some raw one. -/
theorem DelayPrimitive.ofRaw_surjective {nominal : Ns} (h : 0 < nominal) (d : DelayPrimitive nominal) :
    DelayPrimitive.ofRaw nominal h ⟨d.tol, d.draw, d.cycles⟩ = d := by
  have ht := atLeast_of_ge d.tol_nonneg
  have hc : d.cycles - 1 + 1 = d.cycles := by have := d.cycles_pos; omega
  have hd : (fun n => boundedDraw nominal (atLeast 0 d.tol) (d.draw n)) = d.draw := by
    funext n
    rw [ht]
    exact boundedDraw_of_bounds (d.draw_ge n) (d.draw_le n) (d.draw_pos n)
  cases d
  simp_all [DelayPrimitive.ofRaw]

/-- Every choice of the OPEN parameters within R7's bounds is `Params.ofRaw` of some raw value, so a claim about
`Config.params` may rest on no value of them. -/
theorem Params.ofRaw_surjective (p : Params) : ∃ r, Params.ofRaw r = p := by
  refine ⟨⟨p.hasExtraPolicies, p.preemption, p.dDrv, p.dLatch, ⟨p.long.tol, p.long.draw, p.long.cycles⟩,
    ⟨p.short.tol, p.short.draw, p.short.cycles⟩, ⟨p.trim.tol, p.trim.draw, p.trim.cycles⟩, p.tolRx, p.gapMax, p.fClk⟩, ?_⟩
  have h1 := atLeast_of_ge p.dDrv_nonneg
  have h2 := atLeast_of_ge p.dLatch_ge
  have h3 := atLeast_of_ge p.gapMax_nonneg
  have h4 := p.tolRx_nonneg
  have h5 := p.tolRx_lt
  have h6 := p.fClk_pos
  simp only [Params.ofRaw, DelayPrimitive.ofRaw_surjective]
  cases p
  simp_all

/-- A delay with no tolerance takes its nominal duration (R8, R96). -/
theorem DelayPrimitive.draw_of_tol_zero {nominal : Ns} (d : DelayPrimitive nominal) (h : d.tol = 0) (n : Nat) :
    d.draw n = nominal := by
  have h1 := d.draw_ge n
  have h2 := d.draw_le n
  rw [h] at h1 h2
  linarith

theorem Params.nominal_isNominal : Params.nominal.IsNominal :=
  ⟨fun _ => rfl, fun _ => rfl, fun _ => rfl, rfl, rfl, rfl⟩

/-- Every clock gives `D_x` in the ratio of the clocks (R183). -/
theorem cycleDuration_scale (n : Nat) (hz k : Rat) :
    cycleDuration n (hz * k) = cycleDuration n hz / k := by
  unfold cycleDuration
  rw [div_div]

end Sys2Proof
end

