-- ==== Sys2Proof/Laws/Decode.lean ====
section
/-!
SUPPORT. What the decoders answer: `decode` case by case on the opcode, and the command port in terms of it.
-/
namespace Sys2Proof

theorem bareRow_ok {w : Word} {i j : Instr} {c : FaultCode} : bareRow w i c = .ok j ↔ argOf w = 0 ∧ j = i := by
  unfold bareRow
  split <;> simp_all [eq_comm]

/-- A code names a policy exactly when it is legal (R60, R86). -/
theorem policyOf_isSome (hasExtra : Bool) (pol : BitVec 2) :
    (policyOf hasExtra pol).isSome = policyCodeLegal hasExtra pol := by
  revert hasExtra pol
  decide

/-- A command's operand is implemented exactly when the command is well formed (R86). -/
theorem operandImplemented_eq_wf (hasExtra : Bool) (i : Instr) : operandImplemented hasExtra i = i.wf hasExtra := by
  cases i <;> simp [operandImplemented, Instr.wf, policyOf_isSome]

/-- The port gives the commands of the opcode map and nothing else (R65, R66). -/
theorem portCommand_ok {w : Word} {i : Instr} : portCommand w = .ok i ↔ decode w = .ok i ∧ i.isCommand = true := by
  unfold portCommand
  split
  · next c hc => simp [hc]
  · next j hj =>
    rw [hj]
    split
    · next hc => simp only [Except.ok.injEq]; exact ⟨fun h => ⟨h, h ▸ hc⟩, fun h => h.1⟩
    · next hc =>
      simp only [reduceCtorEq, Except.ok.injEq, false_iff, not_and]
      exact fun h => h ▸ hc

/-- The command port gives a command of the opcode map that is well formed, and nothing else (R71). -/
theorem decodeCommand_ok {hasExtra : Bool} {w : Word} {i : Instr} :
    decodeCommand hasExtra w = .ok i ↔ portCommand w = .ok i ∧ i.wf hasExtra = true := by
  unfold decodeCommand
  split
  · next c hc => simp [hc]
  · next j hj =>
    rw [hj, operandImplemented_eq_wf]
    split
    · next hc => simp only [Except.ok.injEq]; exact ⟨fun h => ⟨h, h ▸ hc⟩, fun h => h.1⟩
    · next hc =>
      simp only [reduceCtorEq, Except.ok.injEq, false_iff, not_and]
      exact fun h => h ▸ hc

end Sys2Proof
end

