-- ==== Sys2Proof/Laws/State.lean ====
section
/-!
SUPPORT. What every operation of Machine/Ops.lean, Machine/Flags.lean, Machine/Delay.lean and Machine/Emitter.lean leaves in
every field of the state: one lemma per field per operation, so that no later proof unfolds one.
-/
namespace Sys2Proof.Machine

section
variable (s : State)

/-! ### setTv -/

@[simp] theorem State.setTv_engState : (s.setTv).engState = s.engState := rfl
@[simp] theorem State.setTv_bound : (s.setTv).bound = s.bound := rfl
@[simp] theorem State.setTv_policy : (s.setTv).policy = s.policy := rfl
@[simp] theorem State.setTv_pin : (s.setTv).pin = s.pin := rfl
@[simp] theorem State.setTv_seq : (s.setTv).seq = s.seq := rfl
@[simp] theorem State.setTv_bitIdx : (s.setTv).bitIdx = s.bitIdx := rfl
@[simp] theorem State.setTv_phase : (s.setTv).phase = s.phase := rfl
@[simp] theorem State.setTv_faultCode : (s.setTv).faultCode = s.faultCode := rfl
@[simp] theorem State.setTv_tv : (s.setTv).tv = true := rfl
@[simp] theorem State.setTv_t : (s.setTv).t = s.t := rfl
@[simp] theorem State.setTv_trace : (s.setTv).trace = s.trace := rfl
@[simp] theorem State.setTv_microTrace : (s.setTv).microTrace = s.microTrace := rfl
@[simp] theorem State.setTv_hostIdx : (s.setTv).hostIdx = s.hostIdx := rfl
@[simp] theorem State.setTv_stream : (s.setTv).stream = s.stream := rfl
@[simp] theorem State.setTv_schedule : (s.setTv).schedule = s.schedule := rfl
@[simp] theorem State.setTv_draws : (s.setTv).draws = s.draws := rfl

/-! ### recordFault -/

@[simp] theorem State.recordFault_engState (c : FaultCode) : (s.recordFault c).engState = s.engState := by
  unfold State.recordFault
  split <;> simp_all
@[simp] theorem State.recordFault_bound (c : FaultCode) : (s.recordFault c).bound = s.bound := by
  unfold State.recordFault
  split <;> simp_all
@[simp] theorem State.recordFault_policy (c : FaultCode) : (s.recordFault c).policy = s.policy := by
  unfold State.recordFault
  split <;> simp_all
@[simp] theorem State.recordFault_pin (c : FaultCode) : (s.recordFault c).pin = s.pin := by
  unfold State.recordFault
  split <;> simp_all
@[simp] theorem State.recordFault_seq (c : FaultCode) : (s.recordFault c).seq = s.seq := by
  unfold State.recordFault
  split <;> simp_all
@[simp] theorem State.recordFault_bitIdx (c : FaultCode) : (s.recordFault c).bitIdx = s.bitIdx := by
  unfold State.recordFault
  split <;> simp_all
@[simp] theorem State.recordFault_phase (c : FaultCode) : (s.recordFault c).phase = s.phase := by
  unfold State.recordFault
  split <;> simp_all
@[simp] theorem State.recordFault_faultCode (c : FaultCode) : (s.recordFault c).faultCode = if s.faultCode = .noFault then c else s.faultCode := by
  unfold State.recordFault
  split <;> simp_all
@[simp] theorem State.recordFault_tv (c : FaultCode) : (s.recordFault c).tv = s.tv := by
  unfold State.recordFault
  split <;> simp_all
@[simp] theorem State.recordFault_t (c : FaultCode) : (s.recordFault c).t = s.t := by
  unfold State.recordFault
  split <;> simp_all
@[simp] theorem State.recordFault_trace (c : FaultCode) : (s.recordFault c).trace = s.trace := by
  unfold State.recordFault
  split <;> simp_all
@[simp] theorem State.recordFault_microTrace (c : FaultCode) : (s.recordFault c).microTrace = s.microTrace := by
  unfold State.recordFault
  split <;> simp_all
@[simp] theorem State.recordFault_hostIdx (c : FaultCode) : (s.recordFault c).hostIdx = s.hostIdx := by
  unfold State.recordFault
  split <;> simp_all
@[simp] theorem State.recordFault_stream (c : FaultCode) : (s.recordFault c).stream = s.stream := by
  unfold State.recordFault
  split <;> simp_all
@[simp] theorem State.recordFault_schedule (c : FaultCode) : (s.recordFault c).schedule = s.schedule := by
  unfold State.recordFault
  split <;> simp_all
@[simp] theorem State.recordFault_draws (c : FaultCode) : (s.recordFault c).draws = s.draws := by
  unfold State.recordFault
  split <;> simp_all

/-! ### advance -/

@[simp] theorem State.advance_engState (d : Ns) : (s.advance d).engState = s.engState := rfl
@[simp] theorem State.advance_bound (d : Ns) : (s.advance d).bound = s.bound := rfl
@[simp] theorem State.advance_policy (d : Ns) : (s.advance d).policy = s.policy := rfl
@[simp] theorem State.advance_pin (d : Ns) : (s.advance d).pin = s.pin := rfl
@[simp] theorem State.advance_seq (d : Ns) : (s.advance d).seq = s.seq := rfl
@[simp] theorem State.advance_bitIdx (d : Ns) : (s.advance d).bitIdx = s.bitIdx := rfl
@[simp] theorem State.advance_phase (d : Ns) : (s.advance d).phase = s.phase := rfl
@[simp] theorem State.advance_faultCode (d : Ns) : (s.advance d).faultCode = s.faultCode := rfl
@[simp] theorem State.advance_tv (d : Ns) : (s.advance d).tv = s.tv := rfl
@[simp] theorem State.advance_t (d : Ns) : (s.advance d).t = s.t + d := rfl
@[simp] theorem State.advance_trace (d : Ns) : (s.advance d).trace = s.trace := rfl
@[simp] theorem State.advance_microTrace (d : Ns) : (s.advance d).microTrace = s.microTrace := rfl
@[simp] theorem State.advance_hostIdx (d : Ns) : (s.advance d).hostIdx = s.hostIdx := rfl
@[simp] theorem State.advance_stream (d : Ns) : (s.advance d).stream = s.stream := rfl
@[simp] theorem State.advance_schedule (d : Ns) : (s.advance d).schedule = s.schedule := rfl
@[simp] theorem State.advance_draws (d : Ns) : (s.advance d).draws = s.draws := rfl

/-! ### pinDrive -/

@[simp] theorem State.pinDrive_engState (l : Level) : (s.pinDrive l).engState = s.engState := rfl
@[simp] theorem State.pinDrive_bound (l : Level) : (s.pinDrive l).bound = s.bound := rfl
@[simp] theorem State.pinDrive_policy (l : Level) : (s.pinDrive l).policy = s.policy := rfl
@[simp] theorem State.pinDrive_pin (l : Level) : (s.pinDrive l).pin = l.toPin := rfl
@[simp] theorem State.pinDrive_seq (l : Level) : (s.pinDrive l).seq = s.seq := rfl
@[simp] theorem State.pinDrive_bitIdx (l : Level) : (s.pinDrive l).bitIdx = s.bitIdx := rfl
@[simp] theorem State.pinDrive_phase (l : Level) : (s.pinDrive l).phase = s.phase := rfl
@[simp] theorem State.pinDrive_faultCode (l : Level) : (s.pinDrive l).faultCode = s.faultCode := rfl
@[simp] theorem State.pinDrive_tv (l : Level) : (s.pinDrive l).tv = s.tv := rfl
@[simp] theorem State.pinDrive_t (l : Level) : (s.pinDrive l).t = s.t := rfl
@[simp] theorem State.pinDrive_trace (l : Level) : (s.pinDrive l).trace = s.trace ++ [⟨s.t, l⟩] := rfl
@[simp] theorem State.pinDrive_microTrace (l : Level) : (s.pinDrive l).microTrace = s.microTrace := rfl
@[simp] theorem State.pinDrive_hostIdx (l : Level) : (s.pinDrive l).hostIdx = s.hostIdx := rfl
@[simp] theorem State.pinDrive_stream (l : Level) : (s.pinDrive l).stream = s.stream := rfl
@[simp] theorem State.pinDrive_schedule (l : Level) : (s.pinDrive l).schedule = s.schedule := rfl
@[simp] theorem State.pinDrive_draws (l : Level) : (s.pinDrive l).draws = s.draws := rfl

/-! ### nextDraw -/

@[simp] theorem State.nextDraw_engState : (s.nextDraw).engState = s.engState := rfl
@[simp] theorem State.nextDraw_bound : (s.nextDraw).bound = s.bound := rfl
@[simp] theorem State.nextDraw_policy : (s.nextDraw).policy = s.policy := rfl
@[simp] theorem State.nextDraw_pin : (s.nextDraw).pin = s.pin := rfl
@[simp] theorem State.nextDraw_seq : (s.nextDraw).seq = s.seq := rfl
@[simp] theorem State.nextDraw_bitIdx : (s.nextDraw).bitIdx = s.bitIdx := rfl
@[simp] theorem State.nextDraw_phase : (s.nextDraw).phase = s.phase := rfl
@[simp] theorem State.nextDraw_faultCode : (s.nextDraw).faultCode = s.faultCode := rfl
@[simp] theorem State.nextDraw_tv : (s.nextDraw).tv = s.tv := rfl
@[simp] theorem State.nextDraw_t : (s.nextDraw).t = s.t := rfl
@[simp] theorem State.nextDraw_trace : (s.nextDraw).trace = s.trace := rfl
@[simp] theorem State.nextDraw_microTrace : (s.nextDraw).microTrace = s.microTrace := rfl
@[simp] theorem State.nextDraw_hostIdx : (s.nextDraw).hostIdx = s.hostIdx := rfl
@[simp] theorem State.nextDraw_stream : (s.nextDraw).stream = s.stream := rfl
@[simp] theorem State.nextDraw_schedule : (s.nextDraw).schedule = s.schedule := rfl
@[simp] theorem State.nextDraw_draws : (s.nextDraw).draws = s.draws + 1 := rfl

/-! ### takeWord -/

@[simp] theorem State.takeWord_engState : (s.takeWord).engState = s.engState := rfl
@[simp] theorem State.takeWord_bound : (s.takeWord).bound = s.bound := rfl
@[simp] theorem State.takeWord_policy : (s.takeWord).policy = s.policy := rfl
@[simp] theorem State.takeWord_pin : (s.takeWord).pin = s.pin := rfl
@[simp] theorem State.takeWord_seq : (s.takeWord).seq = s.seq := rfl
@[simp] theorem State.takeWord_bitIdx : (s.takeWord).bitIdx = s.bitIdx := rfl
@[simp] theorem State.takeWord_phase : (s.takeWord).phase = s.phase := rfl
@[simp] theorem State.takeWord_faultCode : (s.takeWord).faultCode = s.faultCode := rfl
@[simp] theorem State.takeWord_tv : (s.takeWord).tv = s.tv := rfl
@[simp] theorem State.takeWord_t : (s.takeWord).t = s.t := rfl
@[simp] theorem State.takeWord_trace : (s.takeWord).trace = s.trace := rfl
@[simp] theorem State.takeWord_microTrace : (s.takeWord).microTrace = s.microTrace := rfl
@[simp] theorem State.takeWord_hostIdx : (s.takeWord).hostIdx = s.hostIdx + 1 := rfl
@[simp] theorem State.takeWord_stream : (s.takeWord).stream = s.stream := rfl
@[simp] theorem State.takeWord_schedule : (s.takeWord).schedule = s.schedule := rfl
@[simp] theorem State.takeWord_draws : (s.takeWord).draws = s.draws := rfl

/-! ### raiseFault -/

@[simp] theorem State.raiseFault_engState (c : FaultCode) : (s.raiseFault c).engState = .faulted := by simp [State.raiseFault]
@[simp] theorem State.raiseFault_bound (c : FaultCode) : (s.raiseFault c).bound = s.bound := by simp [State.raiseFault]
@[simp] theorem State.raiseFault_policy (c : FaultCode) : (s.raiseFault c).policy = s.policy := by simp [State.raiseFault]
@[simp] theorem State.raiseFault_pin (c : FaultCode) : (s.raiseFault c).pin = s.pin := by simp [State.raiseFault]
@[simp] theorem State.raiseFault_seq (c : FaultCode) : (s.raiseFault c).seq = s.seq := by simp [State.raiseFault]
@[simp] theorem State.raiseFault_bitIdx (c : FaultCode) : (s.raiseFault c).bitIdx = s.bitIdx := by simp [State.raiseFault]
@[simp] theorem State.raiseFault_phase (c : FaultCode) : (s.raiseFault c).phase = s.phase := by simp [State.raiseFault]
@[simp] theorem State.raiseFault_faultCode (c : FaultCode) : (s.raiseFault c).faultCode = if s.faultCode = .noFault then c else s.faultCode := by simp [State.raiseFault]
@[simp] theorem State.raiseFault_tv (c : FaultCode) : (s.raiseFault c).tv = s.tv := by simp [State.raiseFault]
@[simp] theorem State.raiseFault_t (c : FaultCode) : (s.raiseFault c).t = s.t := by simp [State.raiseFault]
@[simp] theorem State.raiseFault_trace (c : FaultCode) : (s.raiseFault c).trace = s.trace := by simp [State.raiseFault]
@[simp] theorem State.raiseFault_microTrace (c : FaultCode) : (s.raiseFault c).microTrace = s.microTrace := by simp [State.raiseFault]
@[simp] theorem State.raiseFault_hostIdx (c : FaultCode) : (s.raiseFault c).hostIdx = s.hostIdx := by simp [State.raiseFault]
@[simp] theorem State.raiseFault_stream (c : FaultCode) : (s.raiseFault c).stream = s.stream := by simp [State.raiseFault]
@[simp] theorem State.raiseFault_schedule (c : FaultCode) : (s.raiseFault c).schedule = s.schedule := by simp [State.raiseFault]
@[simp] theorem State.raiseFault_draws (c : FaultCode) : (s.raiseFault c).draws = s.draws := by simp [State.raiseFault]

/-! ### bindPolicy -/

@[simp] theorem State.bindPolicy_engState (q : Policy) : (s.bindPolicy q).engState = .idle := rfl
@[simp] theorem State.bindPolicy_bound (q : Policy) : (s.bindPolicy q).bound = true := rfl
@[simp] theorem State.bindPolicy_policy (q : Policy) : (s.bindPolicy q).policy = some q := rfl
@[simp] theorem State.bindPolicy_pin (q : Policy) : (s.bindPolicy q).pin = s.pin := rfl
@[simp] theorem State.bindPolicy_seq (q : Policy) : (s.bindPolicy q).seq = s.seq := rfl
@[simp] theorem State.bindPolicy_bitIdx (q : Policy) : (s.bindPolicy q).bitIdx = s.bitIdx := rfl
@[simp] theorem State.bindPolicy_phase (q : Policy) : (s.bindPolicy q).phase = s.phase := rfl
@[simp] theorem State.bindPolicy_faultCode (q : Policy) : (s.bindPolicy q).faultCode = s.faultCode := rfl
@[simp] theorem State.bindPolicy_tv (q : Policy) : (s.bindPolicy q).tv = s.tv := rfl
@[simp] theorem State.bindPolicy_t (q : Policy) : (s.bindPolicy q).t = s.t := rfl
@[simp] theorem State.bindPolicy_trace (q : Policy) : (s.bindPolicy q).trace = s.trace := rfl
@[simp] theorem State.bindPolicy_microTrace (q : Policy) : (s.bindPolicy q).microTrace = s.microTrace := rfl
@[simp] theorem State.bindPolicy_hostIdx (q : Policy) : (s.bindPolicy q).hostIdx = s.hostIdx := rfl
@[simp] theorem State.bindPolicy_stream (q : Policy) : (s.bindPolicy q).stream = s.stream := rfl
@[simp] theorem State.bindPolicy_schedule (q : Policy) : (s.bindPolicy q).schedule = s.schedule := rfl
@[simp] theorem State.bindPolicy_draws (q : Policy) : (s.bindPolicy q).draws = s.draws := rfl

/-! ### startWrite -/

@[simp] theorem State.startWrite_engState (bits : ColourWord) : (s.startWrite bits).engState = .emitting := rfl
@[simp] theorem State.startWrite_bound (bits : ColourWord) : (s.startWrite bits).bound = s.bound := rfl
@[simp] theorem State.startWrite_policy (bits : ColourWord) : (s.startWrite bits).policy = s.policy := rfl
@[simp] theorem State.startWrite_pin (bits : ColourWord) : (s.startWrite bits).pin = s.pin := rfl
@[simp] theorem State.startWrite_seq (bits : ColourWord) : (s.startWrite bits).seq = bits := rfl
@[simp] theorem State.startWrite_bitIdx (bits : ColourWord) : (s.startWrite bits).bitIdx = 0 := rfl
@[simp] theorem State.startWrite_phase (bits : ColourWord) : (s.startWrite bits).phase = 0 := rfl
@[simp] theorem State.startWrite_faultCode (bits : ColourWord) : (s.startWrite bits).faultCode = s.faultCode := rfl
@[simp] theorem State.startWrite_tv (bits : ColourWord) : (s.startWrite bits).tv = s.tv := rfl
@[simp] theorem State.startWrite_t (bits : ColourWord) : (s.startWrite bits).t = s.t := rfl
@[simp] theorem State.startWrite_trace (bits : ColourWord) : (s.startWrite bits).trace = s.trace := rfl
@[simp] theorem State.startWrite_microTrace (bits : ColourWord) : (s.startWrite bits).microTrace = s.microTrace := rfl
@[simp] theorem State.startWrite_hostIdx (bits : ColourWord) : (s.startWrite bits).hostIdx = s.hostIdx := rfl
@[simp] theorem State.startWrite_stream (bits : ColourWord) : (s.startWrite bits).stream = s.stream := rfl
@[simp] theorem State.startWrite_schedule (bits : ColourWord) : (s.startWrite bits).schedule = s.schedule := rfl
@[simp] theorem State.startWrite_draws (bits : ColourWord) : (s.startWrite bits).draws = s.draws := rfl

/-! ### startLatch -/

@[simp] theorem State.startLatch_engState : (s.startLatch).engState = .latching := rfl
@[simp] theorem State.startLatch_bound : (s.startLatch).bound = s.bound := rfl
@[simp] theorem State.startLatch_policy : (s.startLatch).policy = s.policy := rfl
@[simp] theorem State.startLatch_pin : (s.startLatch).pin = s.pin := rfl
@[simp] theorem State.startLatch_seq : (s.startLatch).seq = s.seq := rfl
@[simp] theorem State.startLatch_bitIdx : (s.startLatch).bitIdx = s.bitIdx := rfl
@[simp] theorem State.startLatch_phase : (s.startLatch).phase = 0 := rfl
@[simp] theorem State.startLatch_faultCode : (s.startLatch).faultCode = s.faultCode := rfl
@[simp] theorem State.startLatch_tv : (s.startLatch).tv = s.tv := rfl
@[simp] theorem State.startLatch_t : (s.startLatch).t = s.t := rfl
@[simp] theorem State.startLatch_trace : (s.startLatch).trace = s.trace := rfl
@[simp] theorem State.startLatch_microTrace : (s.startLatch).microTrace = s.microTrace := rfl
@[simp] theorem State.startLatch_hostIdx : (s.startLatch).hostIdx = s.hostIdx := rfl
@[simp] theorem State.startLatch_stream : (s.startLatch).stream = s.stream := rfl
@[simp] theorem State.startLatch_schedule : (s.startLatch).schedule = s.schedule := rfl
@[simp] theorem State.startLatch_draws : (s.startLatch).draws = s.draws := rfl

/-! ### stallFor -/

@[simp] theorem State.stallFor_engState (d : Ns) : (s.stallFor d).engState = s.engState := by
  rcases s with ⟨e⟩
  cases e <;> rfl
@[simp] theorem State.stallFor_bound (d : Ns) : (s.stallFor d).bound = s.bound := by
  rcases s with ⟨e⟩
  cases e <;> rfl
@[simp] theorem State.stallFor_policy (d : Ns) : (s.stallFor d).policy = s.policy := by
  rcases s with ⟨e⟩
  cases e <;> rfl
@[simp] theorem State.stallFor_pin (d : Ns) : (s.stallFor d).pin = s.pin := by
  rcases s with ⟨e⟩
  cases e <;> rfl
@[simp] theorem State.stallFor_seq (d : Ns) : (s.stallFor d).seq = s.seq := by
  rcases s with ⟨e⟩
  cases e <;> rfl
@[simp] theorem State.stallFor_bitIdx (d : Ns) : (s.stallFor d).bitIdx = s.bitIdx := by
  rcases s with ⟨e⟩
  cases e <;> rfl
@[simp] theorem State.stallFor_phase (d : Ns) : (s.stallFor d).phase = s.phase := by
  rcases s with ⟨e⟩
  cases e <;> rfl
@[simp] theorem State.stallFor_faultCode (d : Ns) : (s.stallFor d).faultCode = s.faultCode := by
  rcases s with ⟨e⟩
  cases e <;> rfl
@[simp] theorem State.stallFor_tv (d : Ns) : (s.stallFor d).tv = if s.engState = .emitting then true else s.tv := by
  rcases s with ⟨e⟩
  cases e <;> rfl
@[simp] theorem State.stallFor_t (d : Ns) : (s.stallFor d).t = s.t + d := by
  rcases s with ⟨e⟩
  cases e <;> rfl
@[simp] theorem State.stallFor_trace (d : Ns) : (s.stallFor d).trace = s.trace := by
  rcases s with ⟨e⟩
  cases e <;> rfl
@[simp] theorem State.stallFor_microTrace (d : Ns) : (s.stallFor d).microTrace = s.microTrace := by
  rcases s with ⟨e⟩
  cases e <;> rfl
@[simp] theorem State.stallFor_hostIdx (d : Ns) : (s.stallFor d).hostIdx = s.hostIdx := by
  rcases s with ⟨e⟩
  cases e <;> rfl
@[simp] theorem State.stallFor_stream (d : Ns) : (s.stallFor d).stream = s.stream := by
  rcases s with ⟨e⟩
  cases e <;> rfl
@[simp] theorem State.stallFor_schedule (d : Ns) : (s.stallFor d).schedule = s.schedule := by
  rcases s with ⟨e⟩
  cases e <;> rfl
@[simp] theorem State.stallFor_draws (d : Ns) : (s.stallFor d).draws = s.draws := by
  rcases s with ⟨e⟩
  cases e <;> rfl

/-! ### recordMicroOp -/

@[simp] theorem State.recordMicroOp_engState (w : Word) : (s.recordMicroOp w).engState = s.engState := rfl
@[simp] theorem State.recordMicroOp_bound (w : Word) : (s.recordMicroOp w).bound = s.bound := rfl
@[simp] theorem State.recordMicroOp_policy (w : Word) : (s.recordMicroOp w).policy = s.policy := rfl
@[simp] theorem State.recordMicroOp_pin (w : Word) : (s.recordMicroOp w).pin = s.pin := rfl
@[simp] theorem State.recordMicroOp_seq (w : Word) : (s.recordMicroOp w).seq = s.seq := rfl
@[simp] theorem State.recordMicroOp_bitIdx (w : Word) : (s.recordMicroOp w).bitIdx = s.bitIdx := rfl
@[simp] theorem State.recordMicroOp_phase (w : Word) : (s.recordMicroOp w).phase = s.phase := rfl
@[simp] theorem State.recordMicroOp_faultCode (w : Word) : (s.recordMicroOp w).faultCode = s.faultCode := rfl
@[simp] theorem State.recordMicroOp_tv (w : Word) : (s.recordMicroOp w).tv = s.tv := rfl
@[simp] theorem State.recordMicroOp_t (w : Word) : (s.recordMicroOp w).t = s.t := rfl
@[simp] theorem State.recordMicroOp_trace (w : Word) : (s.recordMicroOp w).trace = s.trace := rfl
@[simp] theorem State.recordMicroOp_microTrace (w : Word) : (s.recordMicroOp w).microTrace = s.microTrace ++ [w] := rfl
@[simp] theorem State.recordMicroOp_hostIdx (w : Word) : (s.recordMicroOp w).hostIdx = s.hostIdx := rfl
@[simp] theorem State.recordMicroOp_stream (w : Word) : (s.recordMicroOp w).stream = s.stream := rfl
@[simp] theorem State.recordMicroOp_schedule (w : Word) : (s.recordMicroOp w).schedule = s.schedule := rfl
@[simp] theorem State.recordMicroOp_draws (w : Word) : (s.recordMicroOp w).draws = s.draws := rfl

/-! ### resetEvent -/

@[simp] theorem State.resetEvent_engState : (s.resetEvent).engState = .unbound := rfl
@[simp] theorem State.resetEvent_bound : (s.resetEvent).bound = false := rfl
@[simp] theorem State.resetEvent_policy : (s.resetEvent).policy = none := rfl
@[simp] theorem State.resetEvent_pin : (s.resetEvent).pin = .unknown := rfl
@[simp] theorem State.resetEvent_seq : (s.resetEvent).seq = 0 := rfl
@[simp] theorem State.resetEvent_bitIdx : (s.resetEvent).bitIdx = 0 := rfl
@[simp] theorem State.resetEvent_phase : (s.resetEvent).phase = 0 := rfl
@[simp] theorem State.resetEvent_faultCode : (s.resetEvent).faultCode = .noFault := rfl
@[simp] theorem State.resetEvent_tv : (s.resetEvent).tv = false := rfl
@[simp] theorem State.resetEvent_t : (s.resetEvent).t = 0 := rfl
@[simp] theorem State.resetEvent_trace : (s.resetEvent).trace = [] := rfl
@[simp] theorem State.resetEvent_microTrace : (s.resetEvent).microTrace = [] := rfl
@[simp] theorem State.resetEvent_hostIdx : (s.resetEvent).hostIdx = 0 := rfl
@[simp] theorem State.resetEvent_stream : (s.resetEvent).stream = s.stream := rfl
@[simp] theorem State.resetEvent_schedule : (s.resetEvent).schedule = s.schedule := rfl
@[simp] theorem State.resetEvent_draws : (s.resetEvent).draws = s.draws := rfl

/-! ### delayFor -/

@[simp] theorem delayFor_engState {nominal : Ns} (d : DelayPrimitive nominal) : (delayFor d s).engState = s.engState := rfl
@[simp] theorem delayFor_bound {nominal : Ns} (d : DelayPrimitive nominal) : (delayFor d s).bound = s.bound := rfl
@[simp] theorem delayFor_policy {nominal : Ns} (d : DelayPrimitive nominal) : (delayFor d s).policy = s.policy := rfl
@[simp] theorem delayFor_pin {nominal : Ns} (d : DelayPrimitive nominal) : (delayFor d s).pin = s.pin := rfl
@[simp] theorem delayFor_seq {nominal : Ns} (d : DelayPrimitive nominal) : (delayFor d s).seq = s.seq := rfl
@[simp] theorem delayFor_bitIdx {nominal : Ns} (d : DelayPrimitive nominal) : (delayFor d s).bitIdx = s.bitIdx := rfl
@[simp] theorem delayFor_phase {nominal : Ns} (d : DelayPrimitive nominal) : (delayFor d s).phase = s.phase := rfl
@[simp] theorem delayFor_faultCode {nominal : Ns} (d : DelayPrimitive nominal) : (delayFor d s).faultCode = s.faultCode := rfl
@[simp] theorem delayFor_tv {nominal : Ns} (d : DelayPrimitive nominal) : (delayFor d s).tv = s.tv := rfl
@[simp] theorem delayFor_t {nominal : Ns} (d : DelayPrimitive nominal) : (delayFor d s).t = s.t + d.draw s.draws := rfl
@[simp] theorem delayFor_trace {nominal : Ns} (d : DelayPrimitive nominal) : (delayFor d s).trace = s.trace := rfl
@[simp] theorem delayFor_microTrace {nominal : Ns} (d : DelayPrimitive nominal) : (delayFor d s).microTrace = s.microTrace := rfl
@[simp] theorem delayFor_hostIdx {nominal : Ns} (d : DelayPrimitive nominal) : (delayFor d s).hostIdx = s.hostIdx := rfl
@[simp] theorem delayFor_stream {nominal : Ns} (d : DelayPrimitive nominal) : (delayFor d s).stream = s.stream := rfl
@[simp] theorem delayFor_schedule {nominal : Ns} (d : DelayPrimitive nominal) : (delayFor d s).schedule = s.schedule := rfl
@[simp] theorem delayFor_draws {nominal : Ns} (d : DelayPrimitive nominal) : (delayFor d s).draws = s.draws + 1 := rfl

/-! ### drive -/

@[simp] theorem drive_engState (p : Params) (l : Level) : (drive p l s).engState = s.engState := rfl
@[simp] theorem drive_bound (p : Params) (l : Level) : (drive p l s).bound = s.bound := rfl
@[simp] theorem drive_policy (p : Params) (l : Level) : (drive p l s).policy = s.policy := rfl
@[simp] theorem drive_pin (p : Params) (l : Level) : (drive p l s).pin = l.toPin := rfl
@[simp] theorem drive_seq (p : Params) (l : Level) : (drive p l s).seq = s.seq := rfl
@[simp] theorem drive_bitIdx (p : Params) (l : Level) : (drive p l s).bitIdx = s.bitIdx := rfl
@[simp] theorem drive_phase (p : Params) (l : Level) : (drive p l s).phase = s.phase := rfl
@[simp] theorem drive_faultCode (p : Params) (l : Level) : (drive p l s).faultCode = s.faultCode := rfl
@[simp] theorem drive_tv (p : Params) (l : Level) : (drive p l s).tv = s.tv := rfl
@[simp] theorem drive_t (p : Params) (l : Level) : (drive p l s).t = s.t + p.dDrv := rfl
@[simp] theorem drive_trace (p : Params) (l : Level) : (drive p l s).trace = s.trace ++ [⟨s.t, l⟩] := rfl
@[simp] theorem drive_microTrace (p : Params) (l : Level) : (drive p l s).microTrace = s.microTrace := rfl
@[simp] theorem drive_hostIdx (p : Params) (l : Level) : (drive p l s).hostIdx = s.hostIdx := rfl
@[simp] theorem drive_stream (p : Params) (l : Level) : (drive p l s).stream = s.stream := rfl
@[simp] theorem drive_schedule (p : Params) (l : Level) : (drive p l s).schedule = s.schedule := rfl
@[simp] theorem drive_draws (p : Params) (l : Level) : (drive p l s).draws = s.draws := rfl

end

/-- `resetEvent` leaves the state `State.reset` gives, less what is not an element of R38. -/
theorem State.resetEvent_eq (s : State) :
    s.resetEvent = { State.reset with stream := s.stream, schedule := s.schedule, draws := s.draws } := rfl

@[simp] theorem State.recordFault_none (s : State) (c : FaultCode) (h : s.faultCode = .noFault) :
    s.recordFault c = { s with faultCode := c } := by
  simp [State.recordFault, h]

@[simp] theorem State.recordFault_sticky (s : State) (c : FaultCode) (h : s.faultCode ≠ .noFault) :
    s.recordFault c = s := by
  simp [State.recordFault, h]

end Sys2Proof.Machine
end

