-- ==== Sys2Proof/Laws/Engine.lean ====
section
/-!
SUPPORT. What a step can do, said once: the meanings (43_writer_engine.md R115 to R120), ENGINE's step (R128), HOST's issue
and the choice of who moves. Later proofs cite these and do not unfold the step.
-/
namespace Sys2Proof.Machine

/-- `exec` is the general meaning at the machine's own parameters. -/
theorem exec_eq_execOn (i : Instr) (s : State) : exec i s = execOn Config.params i s := by
  cases i <;> rfl

/-- `step` is the general step at the machine's own parameters. -/
theorem step_eq_stepOn (s : State) : step s = stepOn Config.params s := by
  have h : exec = execOn Config.params := by
    funext i u
    exact exec_eq_execOn i u
  simp only [step, stepOn, h]

/-- Running the machine `Sys2Proof.core` of the host's interface is running the instance at its own parameters. -/
theorem run_step_eq_runOn (k : Nat) (s : State) :
    Host.Core.run ⟨State, Fault, Refusal, step, State.reset⟩ k s = runOn Config.params k s := by
  induction k generalizing s with
  | zero => rfl
  | succ k ih =>
    simp only [Host.Core.run, runOn, step_eq_stepOn]
    cases stepOn Config.params s <;> simp [ih]

/-- A run of `j + k` steps is a run of `j` and then of `k`. -/
theorem runOn_add (p : Params) (j k : Nat) (s u : State) (h : runOn p j s = .next u) :
    runOn p (j + k) s = runOn p k u := by
  induction j generalizing s with
  | zero =>
    simp only [runOn] at h
    cases h
    simp
  | succ j ih =>
    rw [Nat.succ_add]
    simp only [runOn] at h ⊢
    cases hv : stepOn p s with
    | next v => rw [hv] at h; exact ih v h
    | fault f => rw [hv] at h; cases h
    | refused r => rw [hv] at h; cases h

/-- All an `issue` of a command can do (R115, R131). -/
theorem issueCommand_next {s u : State} {accept : State → Host.Outcome State Fault Refusal}
    (h : issueCommand s accept = .next u) :
    (s.running = true ∧ u = s) ∨ (s.engState = .faulted ∧ u = s.takeWord) ∨
      ((s.engState = .unbound ∨ s.engState = .idle) ∧ accept s.takeWord = .next u) := by
  unfold issueCommand at h
  split at h <;> simp_all [State.running]

/-- An `issue` outside EMITTING, LATCHING and FAULTED takes the word and runs the command's own checks (R153). -/
theorem issueCommand_resting {s : State} (accept : State → Host.Outcome State Fault Refusal)
    (h : s.engState = .unbound ∨ s.engState = .idle) : issueCommand s accept = accept s.takeWord := by
  rcases h with h | h <;> simp [issueCommand, h]

/-- All `NEW` can do (R116, R153). -/
theorem newOn_next {p : Params} {pol : BitVec 2} {s u : State} (h : newOn p pol s = .next u) :
    (s.running = true ∧ u = s) ∨ (s.engState = .faulted ∧ u = s.takeWord) ∨
      ((s.engState = .unbound ∨ s.engState = .idle) ∧
        ((policyOf p.hasExtraPolicies pol = none ∧ u = s.takeWord.raiseFault .badPolicy) ∨
          ∃ q, policyOf p.hasExtraPolicies pol = some q ∧
            ((s.bound = true ∧ u = s.takeWord.raiseFault .alreadyBound) ∨
              (s.bound = false ∧ u = s.takeWord.bindPolicy q)))) := by
  rcases issueCommand_next h with h | h | ⟨hr, h⟩
  · exact .inl h
  · exact .inr (.inl h)
  · refine .inr (.inr ⟨hr, ?_⟩)
    simp only [Host.Outcome.next.injEq] at h
    split at h
    · next hp => exact .inl ⟨hp, h.symm⟩
    · next q hp =>
      refine .inr ⟨q, hp, ?_⟩
      cases hb : s.bound <;> simp [hb] at h
      · exact .inr ⟨rfl, h.symm⟩
      · exact .inl ⟨rfl, h.symm⟩

/-- All `WRITE` can do (R117, R153). -/
theorem writeOn_next {r g b : Channel} {s u : State} (h : writeOn r g b s = .next u) :
    (s.running = true ∧ u = s) ∨ (s.engState = .faulted ∧ u = s.takeWord) ∨
      ((s.engState = .unbound ∨ s.engState = .idle) ∧
        ((s.bound = false ∧ u = s.takeWord.raiseFault .notBound) ∨
          ∃ q, s.bound = true ∧ s.policy = some q ∧ u = s.takeWord.startWrite (bitsFor q (colourOf r g b)))) := by
  rcases issueCommand_next h with h | h | ⟨hr, h⟩
  · exact .inl h
  · exact .inr (.inl h)
  · refine .inr (.inr ⟨hr, ?_⟩)
    cases hb : s.bound <;> simp [hb] at h
    · exact .inl ⟨rfl, h.symm⟩
    · split at h
      · next q hq => cases h; exact .inr ⟨q, rfl, hq, rfl⟩
      · cases h

/-- All `END_FRAME` can do (R120, R153). -/
theorem endFrameOn_next {s u : State} (h : endFrameOn s = .next u) :
    (s.running = true ∧ u = s) ∨ (s.engState = .faulted ∧ u = s.takeWord) ∨
      ((s.engState = .unbound ∨ s.engState = .idle) ∧
        ((s.bound = false ∧ u = s.takeWord.raiseFault .notBound) ∨ (s.bound = true ∧ u = s.takeWord.startLatch))) := by
  rcases issueCommand_next h with h | h | ⟨hr, h⟩
  · exact .inl h
  · exact .inr (.inl h)
  · refine .inr (.inr ⟨hr, ?_⟩)
    cases hb : s.bound <;> simp [hb] at h
    · exact .inl ⟨rfl, h.symm⟩
    · exact .inr ⟨rfl, h.symm⟩

/-- The state a micro-op leaves (R91 to R94, R103, R104); a command is no micro-op and leaves the state. -/
def afterOp (p : Params) (i : Instr) (s : State) : State :=
  match i with
  | .new _ => s
  | .write _ _ _ => s
  | .endFrame => s
  | .driveHigh => drive p .high s
  | .driveLow => drive p .low s
  | .delayLong => delayFor p.long s
  | .delayShort => delayFor p.short s
  | .delayTrim => delayFor p.trim s
  | .holdLatch => s.advance p.dLatch

/-- A micro-op always completes (R90, R103, R104: no exceptions). -/
theorem execOn_microOp (p : Params) (i : Instr) (s : State) (h : i.isCommand = false) :
    execOn p i s = .next (afterOp p i s) := by
  cases i <;> first | rfl | simp [Instr.isCommand] at h

/-- The sequencer selects micro-ops only (R129). -/
theorem selectedMicroOp_isCommand {s : State} {i : Instr} (h : s.selectedMicroOp = some i) : i.isCommand = false := by
  have hp : ∀ b, ∀ j ∈ pulseFor b, j.isCommand = false := by decide
  have hl : ∀ j ∈ latchProgram, j.isCommand = false := by decide
  unfold State.selectedMicroOp at h
  split at h
  · split at h
    · exact hp _ i (List.mem_of_getElem? h)
    · cases h
  · exact hl i (List.mem_of_getElem? h)
  · cases h
  · cases h
  · cases h

/-- What a micro-op can change: the pin with TRACE, time forward, and the draw counter (R90, R103, R104). -/
theorem afterOp_eq (p : Params) (i : Instr) (s : State) :
    ∃ pin trace t draws, afterOp p i s = { s with pin := pin, trace := trace, t := t, draws := draws } ∧
      s.t ≤ t ∧ s.draws ≤ draws ∧
      ((pin = s.pin ∧ trace = s.trace) ∨
        (i = .driveHigh ∧ pin = .high ∧ trace = s.trace ++ [⟨s.t, .high⟩]) ∨
        (i = .driveLow ∧ pin = .low ∧ trace = s.trace ++ [⟨s.t, .low⟩])) := by
  have hd := p.dDrv_nonneg
  have hh : 0 ≤ p.dLatch := le_trans (by decide +kernel) p.dLatch_ge
  have hl := (p.long.draw_pos s.draws).le
  have hs := (p.short.draw_pos s.draws).le
  have ht := (p.trim.draw_pos s.draws).le
  cases i with
  | new pol => exact ⟨_, _, _, _, rfl, le_refl _, le_refl _, .inl ⟨rfl, rfl⟩⟩
  | write r g b => exact ⟨_, _, _, _, rfl, le_refl _, le_refl _, .inl ⟨rfl, rfl⟩⟩
  | endFrame => exact ⟨_, _, _, _, rfl, le_refl _, le_refl _, .inl ⟨rfl, rfl⟩⟩
  | driveHigh =>
    exact ⟨_, _, _, _, rfl, le_add_of_nonneg_right hd, le_refl _, .inr (.inl ⟨rfl, rfl, rfl⟩)⟩
  | driveLow =>
    exact ⟨_, _, _, _, rfl, le_add_of_nonneg_right hd, le_refl _, .inr (.inr ⟨rfl, rfl, rfl⟩)⟩
  | delayLong =>
    exact ⟨_, _, _, _, rfl, le_add_of_nonneg_right hl, Nat.le_succ _, .inl ⟨rfl, rfl⟩⟩
  | delayShort =>
    exact ⟨_, _, _, _, rfl, le_add_of_nonneg_right hs, Nat.le_succ _, .inl ⟨rfl, rfl⟩⟩
  | delayTrim =>
    exact ⟨_, _, _, _, rfl, le_add_of_nonneg_right ht, Nat.le_succ _, .inl ⟨rfl, rfl⟩⟩
  | holdLatch =>
    exact ⟨_, _, _, _, rfl, le_add_of_nonneg_right hh, le_refl _, .inl ⟨rfl, rfl⟩⟩

/-- What the sequencer's advance can change: the position alone, and ENG_STATE only to IDLE (R118, R120, R128). -/
theorem State.advancePosition_eq (s : State) :
    ∃ e n ph, s.advancePosition = { s with engState := e, bitIdx := n, phase := ph } ∧
      (e = s.engState ∨ (s.running = true ∧ e = .idle)) := by
  unfold State.advancePosition State.advanceEmitting State.advanceLatching
  split
  · next he =>
    split
    · exact ⟨_, _, _, rfl, .inl rfl⟩
    · split
      · exact ⟨_, _, _, rfl, .inr ⟨by simp [State.running, he], rfl⟩⟩
      · exact ⟨_, _, _, rfl, .inl rfl⟩
  · next he =>
    split
    · exact ⟨_, _, _, rfl, .inl rfl⟩
    · exact ⟨_, _, _, rfl, .inr ⟨by simp [State.running, he], rfl⟩⟩
  · exact ⟨_, _, _, rfl, .inl rfl⟩
  · exact ⟨_, _, _, rfl, .inl rfl⟩
  · exact ⟨_, _, _, rfl, .inl rfl⟩

/-- All ENGINE's step can do (R128). -/
theorem engineStep_next {p : Params} {s u : State} (h : engineStep (execOn p) s = .next u) :
    ∃ i, s.selectedMicroOp = some i ∧ u = (afterOp p i s).afterMicroOp i := by
  unfold engineStep at h
  split at h
  · cases h
  · next i hi =>
    rw [execOn_microOp p i s (selectedMicroOp_isCommand hi)] at h
    cases h
    exact ⟨i, hi, rfl⟩

/-- ENGINE's step where the position selects a micro-op (R128). -/
theorem engineStep_of_selected {p : Params} {s : State} {i : Instr} (h : s.selectedMicroOp = some i) :
    engineStep (execOn p) s = .next ((afterOp p i s).afterMicroOp i) := by
  unfold engineStep
  rw [h]
  simp only [execOn_microOp p i s (selectedMicroOp_isCommand h)]

/-- All HOST's `issue` can do outside EMITTING and LATCHING (R115, R153, R155). -/
theorem issueStep_next {p : Params} {s u : State} (h : issueStep (execOn p) s = .next u) :
    ∃ w, s.nextWord = some w ∧
      ((s.engState = .faulted ∧ u = s.takeWord) ∨
        (s.engState ≠ .faulted ∧
          ((∃ c, portCommand w = .error c ∧ u = s.takeWord.raiseFault c) ∨
            ∃ i, portCommand w = .ok i ∧ execOn p i s = .next u))) := by
  unfold issueStep at h
  split at h
  · cases h
  · next w hw =>
    refine ⟨w, hw, ?_⟩
    unfold issueWord at h
    split at h
    · next hf => cases h; exact .inl ⟨hf, rfl⟩
    · next hf =>
      refine .inr ⟨hf, ?_⟩
      split at h
      · next c hc => cases h; exact .inl ⟨c, hc, rfl⟩
      · next i hi => exact .inr ⟨i, hi, h⟩

/-- HOST's `issue` is the decoder of R71 followed by the command's state checks and acceptance (R115, R153): a command the
decoder rejects raises the decoder's fault. -/
theorem issueWord_eq_decodeCommand (p : Params) (w : Word) (s : State)
    (hs : s.engState = .unbound ∨ s.engState = .idle) :
    issueWord (execOn p) w s =
      match decodeCommand p.hasExtraPolicies w with
      | .error c => .next (s.takeWord.raiseFault c)
      | .ok i => execOn p i s := by
  have hf : s.engState ≠ .faulted := by rcases hs with h | h <;> simp [h]
  unfold issueWord decodeCommand
  rw [if_neg hf]
  cases hp : portCommand w with
  | error c => rfl
  | ok i =>
    cases i with
    | new pol =>
      by_cases hq : (policyOf p.hasExtraPolicies pol).isSome
      · simp [operandImplemented, hq]
      · have hn : policyOf p.hasExtraPolicies pol = none := by simpa using hq
        simp [operandImplemented, execOn, newOn, hn, issueCommand_resting _ hs]
    | write r g b => rfl
    | endFrame => rfl
    | driveHigh => rfl
    | driveLow => rfl
    | delayLong => rfl
    | delayShort => rfl
    | delayTrim => rfl
    | holdLatch => rfl

/-- A command is running at every point between two of its micro-ops (R162). -/
theorem State.running_of_betweenMicroOps {s : State} (h : s.betweenMicroOps = true) : s.running = true := by
  cases he : s.engState <;> simp_all [State.betweenMicroOps, State.running]

/-- Settling changes the schedule alone, and only drops moves from its front. -/
theorem State.settle_eq (p : Params) (s : State) :
    ∃ l, s.settle p = { s with schedule := l } ∧ l <:+ s.schedule :=
  ⟨_, rfl, List.dropWhile_suffix _⟩

/-- Nothing is dropped from a schedule that is empty or begins with a possible move. -/
theorem State.settle_of_head {p : Params} {s : State}
    (h : ∀ m, s.schedule.head? = some m → moveIsPossible p s m = true) : s.settle p = s := by
  unfold State.settle
  cases hs : s.schedule with
  | nil => rcases s with ⟨⟩; simp_all
  | cons m rest =>
    have hm := h m (by rw [hs]; rfl)
    rcases s with ⟨⟩
    simp_all

/-- The move a settled schedule begins with is one the rules have. -/
theorem State.settle_head {p : Params} {s : State} {m : Move} (h : (s.settle p).schedule.head? = some m) :
    moveIsPossible p s m = true := by
  have h2 := List.head?_dropWhile_not (fun m => !(moveIsPossible p s m)) s.schedule
  simp only [State.settle] at h
  rw [h] at h2
  simpa using h2

/-- All a step can do while ENGINE runs a command, its moves settled (R115, R128, R162, R173). -/
theorem runningStep_next {run : Instr → State → Host.Outcome State Fault Refusal} {v u : State}
    (h : runningStep run v = .next u) :
    ∃ l, (.reset :: l <:+ v.schedule ∧ u = State.resetEvent { v with schedule := l }) ∨
      (∃ d, v.schedule = .stall d :: l ∧ u = State.stallFor d { v with schedule := l }) ∨
      (l <:+ v.schedule ∧ engineStep run { v with schedule := l } = .next u) := by
  cases hs : v.schedule with
  | nil =>
    simp only [runningStep, hs] at h
    exact ⟨[], .inr (.inr ⟨List.suffix_refl _, by rcases v with ⟨⟩; simp_all⟩)⟩
  | cons m rest =>
    cases m with
    | gap g => simp only [runningStep, hs] at h; exact ⟨v.schedule, .inr (.inr ⟨by simp [hs], h⟩)⟩
    | issue => simp only [runningStep, hs] at h; exact ⟨v.schedule, .inr (.inr ⟨by simp [hs], h⟩)⟩
    | microOp => simp only [runningStep, hs] at h; exact ⟨rest, .inr (.inr ⟨List.suffix_cons _ _, h⟩)⟩
    | stall d =>
      simp only [runningStep, hs, Host.Outcome.next.injEq] at h
      exact ⟨rest, .inr (.inl ⟨d, rfl, h.symm⟩)⟩
    | reset =>
      simp only [runningStep, hs, Host.Outcome.next.injEq] at h
      exact ⟨rest, .inl ⟨List.suffix_refl _, h.symm⟩⟩

/-- All a step can do while ENGINE runs no command, its moves settled (R115, R171). -/
theorem restingStep_next {run : Instr → State → Host.Outcome State Fault Refusal} {v u : State}
    (h : restingStep run v = .next u) :
    ∃ l, (.reset :: l <:+ v.schedule ∧ u = State.resetEvent { v with schedule := l }) ∨
      (∃ g, v.schedule = .gap g :: l ∧ u = State.advance g { v with schedule := l }) ∨
      (l <:+ v.schedule ∧ issueStep run { v with schedule := l } = .next u) := by
  cases hs : v.schedule with
  | nil =>
    simp only [restingStep, hs] at h
    exact ⟨[], .inr (.inr ⟨List.suffix_refl _, by rcases v with ⟨⟩; simp_all⟩)⟩
  | cons m rest =>
    cases m with
    | gap g =>
      simp only [restingStep, hs, Host.Outcome.next.injEq] at h
      exact ⟨rest, .inr (.inl ⟨g, rfl, h.symm⟩)⟩
    | issue => simp only [restingStep, hs] at h; exact ⟨rest, .inr (.inr ⟨List.suffix_cons _ _, h⟩)⟩
    | microOp => simp only [restingStep, hs] at h; exact ⟨rest, .inr (.inr ⟨List.suffix_cons _ _, h⟩)⟩
    | stall d => simp only [restingStep, hs] at h; exact ⟨rest, .inr (.inr ⟨List.suffix_cons _ _, h⟩)⟩
    | reset =>
      simp only [restingStep, hs, Host.Outcome.next.injEq] at h
      exact ⟨rest, .inl ⟨List.suffix_refl _, h.symm⟩⟩

/-- All a step can do (R13, R20, R115, R128, R162, R171). In every case the step starts from the state with some moves
taken from the front of the schedule: a reset or a stall stood in front of those left, and a stall was due between two
micro-ops. -/
theorem stepOn_next {p : Params} {s u : State} (h : stepOn p s = .next u) :
    ∃ l, (.reset :: l <:+ s.schedule ∧ u = State.resetEvent { s with schedule := l }) ∨
      (s.betweenMicroOps = true ∧ ∃ d, 0 < d ∧ p.preemption = true ∧ .stall d :: l <:+ s.schedule ∧
        u = State.stallFor d { s with schedule := l }) ∨
      (s.running = true ∧ l <:+ s.schedule ∧ engineStep (execOn p) { s with schedule := l } = .next u) ∨
      (s.running = false ∧ ∃ g, 0 ≤ g ∧ .gap g :: l <:+ s.schedule ∧ u = State.advance g { s with schedule := l }) ∨
      (s.running = false ∧ l <:+ s.schedule ∧ issueStep (execOn p) { s with schedule := l } = .next u) := by
  obtain ⟨m, hm, hsub⟩ := State.settle_eq p s
  have hhead {a : Move} {l : List Move} (ha : m = a :: l) : moveIsPossible p s a = true :=
    State.settle_head (by rw [hm]; simp [ha])
  unfold stepOn machineStep at h
  rw [hm] at h
  cases hr : s.running
  · rw [hr] at h
    obtain ⟨l, ⟨hl, h⟩ | ⟨g, hg, h⟩ | ⟨hl, h⟩⟩ := restingStep_next h
    · exact ⟨l, .inl ⟨hl.trans hsub, h⟩⟩
    · exact ⟨l, .inr (.inr (.inr (.inl
        ⟨rfl, g, by simpa [moveIsPossible] using hhead hg, by rw [← hg]; exact hsub, h⟩)))⟩
    · exact ⟨l, .inr (.inr (.inr (.inr ⟨rfl, hl.trans hsub, h⟩)))⟩
  · rw [hr] at h
    obtain ⟨l, ⟨hl, h⟩ | ⟨d, hd, h⟩ | ⟨hl, h⟩⟩ := runningStep_next h
    · exact ⟨l, .inl ⟨hl.trans hsub, h⟩⟩
    · have hp := hhead hd
      simp only [moveIsPossible, Bool.and_eq_true, decide_eq_true_eq] at hp
      exact ⟨l, .inr (.inl ⟨hp.1.1, d, hp.2, hp.1.2, by rw [← hd]; exact hsub, h⟩)⟩
    · exact ⟨l, .inr (.inr (.inl ⟨rfl, hl.trans hsub, h⟩))⟩

/-- What a reset leaves is what `State.ResetTo` says (R38, R171). -/
theorem State.resetTo_resetEvent {s : State} {l : List Move} (h : .reset :: l <:+ s.schedule) :
    s.ResetTo (State.resetEvent { s with schedule := l }) := ⟨h, rfl⟩

/-- A move at the front that is no step now is no step at all: the step is the one without it (R115, R128, R162). -/
theorem stepOn_of_impossible {p : Params} {s : State} {m : Move} {rest : List Move} (hs : s.schedule = m :: rest)
    (hm : moveIsPossible p s m = false) : stepOn p s = stepOn p { s with schedule := rest } := by
  have h : s.settle p = State.settle p { s with schedule := rest } := by
    simp only [State.settle, hs, List.dropWhile_cons, hm, Bool.not_false, if_true]
    congr 2
  unfold stepOn machineStep
  rw [h]
  rfl

/-- Where HOST's next move waits (R115), settling drops nothing and the step is ENGINE's. -/
theorem stepOn_of_undisturbed {p : Params} {s : State} (hr : s.running = true) (hu : s.undisturbed = true) :
    stepOn p s = engineStep (execOn p) s := by
  have hs : s.settle p = s ∧ runningStep (execOn p) s = engineStep (execOn p) s := by
    unfold State.undisturbed at hu
    split at hu
    · next h => exact ⟨State.settle_of_head (by simp [h]), by simp [runningStep, h]⟩
    · next g r h =>
      exact ⟨State.settle_of_head (by simpa [h, moveIsPossible] using hu), by simp [runningStep, h]⟩
    · next r h => exact ⟨State.settle_of_head (by simp [h, moveIsPossible]), by simp [runningStep, h]⟩
    · cases hu
    · cases hu
    · cases hu
  unfold stepOn machineStep
  rw [if_pos hr, hs.1, hs.2]

/-- ENGINE's undisturbed step performs the selected micro-op (R128). -/
theorem stepOn_of_selected {p : Params} {s : State} {i : Instr} (hr : s.running = true) (hu : s.undisturbed = true)
    (hi : s.selectedMicroOp = some i) : stepOn p s = .next ((afterOp p i s).afterMicroOp i) := by
  rw [stepOn_of_undisturbed hr hu, engineStep_of_selected hi]

end Sys2Proof.Machine
end

