-- ==== Sys2Proof/Laws/PerInstr.lean ====
section
/-!
SUPPORT. Statements made of every instruction as syntax, one lemma per constructor. `OpcodeMap`: the word `encode` gives an
instruction matches that instruction's row of the opcode map (30_encoding.md R64), and its opcode byte is the row's.
-/
namespace Sys2Proof.Laws

/-- `encode i` matches the row of `i`, and the bits [31:24] are the row's `OPC` (R56, R64). -/
def OpcodeMap.Statement (i : Instr) : Prop :=
  (opcodeRowOf i).matchesWord (encode i) = true ∧ opcOf (encode i) = opcOf (opcodeRowOf i).matchBits

theorem OpcodeMap.new (pol : BitVec 2) : OpcodeMap.Statement (.new pol) := by
  revert pol
  unfold OpcodeMap.Statement
  decide

/-- A mask of the opcode byte leaves `OPC` and clears `ARG`. -/
theorem OpcodeMap.mask_low (opc : BitVec 8) (arg : BitVec 24) :
    ((opc ++ arg : Word) &&& 0xFF000000#32) = (opc ++ 0#24 : Word) := by
  have h : (0xFF000000#32) = (BitVec.allOnes 8 ++ 0#24 : Word) := by decide
  rw [h, BitVec.and_append, BitVec.and_allOnes, BitVec.and_zero]

theorem OpcodeMap.write (r g b : Channel) : OpcodeMap.Statement (.write r g b) := by
  refine ⟨?_, ?_⟩
  · have hm : (0x02#8 ++ (r ++ g ++ b) : Word) &&& 0xFF000000#32 = 0x02000000#32 :=
      (OpcodeMap.mask_low 0x02#8 (r ++ g ++ b)).trans (by decide)
    exact beq_iff_eq.mpr hm
  · have ho : (0x02#8 ++ (r ++ g ++ b) : Word).extractLsb' 24 8 = 0x02#8 := BitVec.extractLsb'_append_eq_left
    have hr : opcOf (opcodeRowOf (.write 0 0 0)).matchBits = 0x02#8 := by decide
    exact ho.trans hr.symm

theorem OpcodeMap.endFrame : OpcodeMap.Statement .endFrame := by
  unfold OpcodeMap.Statement
  decide

theorem OpcodeMap.driveHigh : OpcodeMap.Statement .driveHigh := by
  unfold OpcodeMap.Statement
  decide

theorem OpcodeMap.driveLow : OpcodeMap.Statement .driveLow := by
  unfold OpcodeMap.Statement
  decide

theorem OpcodeMap.delayLong : OpcodeMap.Statement .delayLong := by
  unfold OpcodeMap.Statement
  decide

theorem OpcodeMap.delayShort : OpcodeMap.Statement .delayShort := by
  unfold OpcodeMap.Statement
  decide

theorem OpcodeMap.delayTrim : OpcodeMap.Statement .delayTrim := by
  unfold OpcodeMap.Statement
  decide

theorem OpcodeMap.holdLatch : OpcodeMap.Statement .holdLatch := by
  unfold OpcodeMap.Statement
  decide

end Sys2Proof.Laws
end

