-- ==== Sys2Proof/Laws/Wire.lean ====
section
/-!
SUPPORT. Small laws of the waveform and of the reference wire decoder (44_wire_protocol.md R138 to R144), and of the
logical pulses (42_pulse_emitter.md R113).
-/
namespace Sys2Proof.Machine

/-- The level after two parts of a trace is the second part's, from the first part's (R138). -/
theorem levelAfter_append (l : Pin) (a b : List PinEvent) (τ : Ns) :
    levelAfter l (a ++ b) τ = levelAfter (levelAfter l a τ) b τ := by
  simp [levelAfter]

/-- Events that are still to come do not change the level (R138). -/
theorem levelAfter_future (l : Pin) (tr : List PinEvent) (τ : Ns) (h : ∀ e ∈ tr, τ < e.time) :
    levelAfter l tr τ = l := by
  induction tr generalizing l with
  | nil => rfl
  | cons e rest ih =>
    have he : ¬e.time ≤ τ := not_le.mpr (h e (by simp))
    simp only [levelAfter, List.foldl_cons, if_neg he]
    exact ih l fun f hf => h f (by simp [hf])

/-- The next fall is the first `LOW` event: only `HIGH` events stand before it (R113). -/
theorem nextFall_eq_some {tr after : List PinEvent} {f : Ns} (h : nextFall tr = some (f, after)) :
    ∃ pre, tr = pre ++ ⟨f, .low⟩ :: after ∧ ∀ e ∈ pre, e.level = .high := by
  induction tr with
  | nil => cases h
  | cons e rest ih =>
    obtain ⟨time, level⟩ := e
    cases level with
    | low => cases h; exact ⟨[], rfl, by simp⟩
    | high =>
      obtain ⟨pre, rfl, hp⟩ := ih h
      exact ⟨⟨time, .high⟩ :: pre, rfl, by simpa using hp⟩

/-- The next rise is the first `HIGH` event: only `LOW` events stand before it (R113). -/
theorem nextRise_eq_some {tr : List PinEvent} {r : Ns} (h : nextRise tr = some r) :
    ∃ pre after, tr = pre ++ ⟨r, .high⟩ :: after ∧ ∀ e ∈ pre, e.level = .low := by
  induction tr with
  | nil => cases h
  | cons e rest ih =>
    obtain ⟨time, level⟩ := e
    cases level with
    | high => cases h; exact ⟨[], rest, rfl, by simp⟩
    | low =>
      obtain ⟨pre, after, rfl, hp⟩ := ih h
      exact ⟨⟨time, .low⟩ :: pre, after, rfl, by simpa using hp⟩

/-- A logical pulse has its rise, its fall and, where there is one, the rise after the fall in TRACE in this order, and no
event of the other level between them (R113). -/
theorem pulseOfRise_eq_some {rise : Ns} {after : List PinEvent} {x : LogicalPulse} (h : pulseOfRise rise after = some x) :
    ∃ pre f rest, after = pre ++ ⟨f, .low⟩ :: rest ∧ (∀ e ∈ pre, e.level = .high) ∧ x.rise = rise ∧
      x.highDur = f - rise ∧ ∀ l, x.lowDur = some l →
        ∃ lows r later, rest = lows ++ ⟨r, .high⟩ :: later ∧ (∀ e ∈ lows, e.level = .low) ∧ l = r - f := by
  obtain ⟨⟨f, rest⟩, hf, rfl⟩ := Option.map_eq_some_iff.mp h
  obtain ⟨pre, rfl, hp⟩ := nextFall_eq_some hf
  refine ⟨pre, f, rest, rfl, hp, rfl, rfl, fun l hl => ?_⟩
  obtain ⟨r, hr, rfl⟩ := Option.map_eq_some_iff.mp hl
  obtain ⟨lows, later, rfl, hlows⟩ := nextRise_eq_some hr
  exact ⟨lows, r, later, rfl, hlows, rfl⟩

/-- Merging an interval with a list of segments keeps their total length (R139). -/
theorem joinSegment_sum (x : Segment) (l : List Segment) :
    ((joinSegment x l).map Segment.dur).sum = x.dur + (l.map Segment.dur).sum := by
  cases l with
  | nil => simp [joinSegment]
  | cons y rest =>
    simp only [joinSegment]
    split
    · simp [add_assoc]
    · simp

/-- Dropping intervals of length 0 and merging keeps the total length, where no length is negative (R139). -/
theorem mergeSegments_sum (l : List Segment) (h : ∀ x ∈ l, 0 ≤ x.dur) :
    ((mergeSegments l).map Segment.dur).sum = (l.map Segment.dur).sum := by
  induction l with
  | nil => rfl
  | cons x rest ih =>
    have hr := ih fun y hy => h y (by simp [hy])
    have hx := h x (by simp)
    unfold mergeSegments at hr ⊢
    by_cases hp : 0 < x.dur
    · simp [hp, joinSegment_sum, hr]
    · have h0 : x.dur = 0 := le_antisymm (not_lt.mp hp) hx
      simp [h0, hr]

/-- The walk over a pulse whose low is no latch appends its bit (R144). -/
theorem walkSegments_pulse {tolRx : Ns} {fs : List (List ColourWord)} {bits : List Bool} {x y : Segment}
    {rest : List Segment} {b : Bool} (hx : x.level = .high) (hy : y.level = .low)
    (hb : classifyPulse tolRx x.dur y.dur = some b) (hl : y.isLatch = false) :
    walkSegments tolRx fs bits (x :: y :: rest) = walkSegments tolRx fs (bits ++ [b]) rest := by
  simp [walkSegments, hx, hy, hb, hl]

/-- The walk over a pulse whose low is a latch appends its bit and closes the frame (R141, R144). -/
theorem walkSegments_last_pulse {tolRx : Ns} {fs gs : List (List ColourWord)} {bits : List Bool} {x y : Segment}
    {rest : List Segment} {b : Bool} (hx : x.level = .high) (hy : y.level = .low)
    (hb : classifyPulse tolRx x.dur y.dur = some b) (hl : y.isLatch = true)
    (hc : closeFrame fs (bits ++ [b]) = some gs) :
    walkSegments tolRx fs bits (x :: y :: rest) = walkSegments tolRx gs [] rest := by
  simp [walkSegments, hx, hy, hb, hl, hc]

end Sys2Proof.Machine
end

