-- ==== Sys2Proof/Tests/Slice0.lean ====
section
/-!
SUPPORT. The model's own tests. Expected results come from the spec: the encodings of 30_encoding.md, the rules' examples and
the vectors of 95_test_vectors.md, named in each comment. The theorems `witness_…` show, for every statement with
hypotheses, a concrete state and operands that meet all of them.
-/
namespace Sys2Proof.Tests
open Sys2Proof Sys2Proof.Machine

/-! ## Well-formedness: an ill-formed term for each check -/

/-- Policy code `11` names no policy (R60). -/
theorem test_wf_new_11 : (Instr.new 3).wf true = false := by decide
/-- Code `01` without HAS_EXTRA_POLICIES (R60). -/
theorem test_wf_new_01 : (Instr.new 1).wf false = false := by decide
/-- Code `10` without HAS_EXTRA_POLICIES (R60). -/
theorem test_wf_new_10 : (Instr.new 2).wf false = false := by decide
/-- BRG is always implemented, the others with HAS_EXTRA_POLICIES (R60). -/
theorem test_wf_new_legal : (Instr.new 0).wf false = true ∧ (Instr.new 1).wf true = true ∧ (Instr.new 2).wf true = true := by
  decide

/-! ## Decoding: words written out bit by bit from R64's patterns -/

theorem test_decode_new : decode 0b00000001000000000000000000000010#32 = .ok (.new 0b10) := by decide
theorem test_decode_write :
    decode 0b00000010111100001100110010101010#32 = .ok (.write 0b11110000 0b11001100 0b10101010) := by decide
theorem test_decode_endFrame : decode 0b00000011000000000000000000000000#32 = .ok .endFrame := by decide
theorem test_decode_driveHigh : decode 0b00010000000000000000000000000000#32 = .ok .driveHigh := by decide
theorem test_decode_driveLow : decode 0b00010001000000000000000000000000#32 = .ok .driveLow := by decide
theorem test_decode_delayLong : decode 0b00100000000000000000000000000000#32 = .ok .delayLong := by decide
theorem test_decode_delayShort : decode 0b00100001000000000000000000000000#32 = .ok .delayShort := by decide
theorem test_decode_delayTrim : decode 0b00100010000000000000000000000000#32 = .ok .delayTrim := by decide
theorem test_decode_holdLatch : decode 0b00100011000000000000000000000000#32 = .ok .holdLatch := by decide
/-- A micro-op word with an operand is a word of no row (R63). -/
theorem test_decode_microOp_operand : decode 0x10000001#32 = .error .illegalOpcode := by decide
/-- 95 section 2.1: RESERVED_NONZERO wins over BAD_POLICY. -/
theorem test_port_reserved_first : decodeCommand true 0x01000007#32 = .error .reservedNonzero := by decide
/-- 95 section 2.1: a micro-op on the command port. -/
theorem test_port_microOp : decodeCommand true 0x23000000#32 = .error .illegalOpcode := by decide
/-- A transfer shorter than a word is no word (R46). -/
theorem test_table_short_word : decodeTableWord 16 0x0300 = none := by decide

/-! ## The policy maps: 95 section 2.2 -/

theorem test_bits_brg : bitsFor .brg ⟨0x12, 0x34, 0x56⟩ = 0x341256#24 := by decide
theorem test_bits_rgb : bitsFor .rgb ⟨0xAA, 0x55, 0x0F⟩ = 0x0F55AA#24 := by decide
theorem test_bits_grb : bitsFor .grb ⟨0x80, 0x01, 0x00⟩ = 0x008001#24 := by decide

/-! ## One instruction each -/

/-- The value `f` reads in an outcome's next state. -/
def inNext {α : Type} (o : Host.Outcome State Fault Refusal) (f : State → α) : Option α :=
  match o with
  | .next s => some (f s)
  | .fault _ => none
  | .refused _ => none

/-- The state after reset at time `t`. -/
def at_ (t : Ns) : State := { State.reset with t := t }

/-- IDLE after `NEW BRG`. -/
def idleBrg : State := { State.reset with engState := .idle, bound := true, policy := some .brg, hostIdx := 1 }

/-- EMITTING `seq` under BRG, at the start of pulse `n`'s micro-op `ph`. -/
def emittingAt (seq : ColourWord) (n : BitVec 5) (ph : BitVec 3) : State :=
  { idleBrg with engState := .emitting, seq := seq, bitIdx := n, phase := ph }

/-- LATCHING before micro-op `ph`. -/
def latchingAt (ph : BitVec 3) : State := { idleBrg with engState := .latching, phase := ph }

/-- FAULTED from UNBOUND with NOT_BOUND. -/
def faulted : State := { State.reset with engState := .faulted, faultCode := .notBound }

/-- An instance with stalls (95 program P5). -/
def preemptible : Params := { Params.nominal with preemption := true }

/-- An instance without the extra policies (95 section 2.1). -/
def plain : Params := { Params.nominal with hasExtraPolicies := false }

/-- 95 section 2.1: STATUS after `NEW BRG` and `NEW GRB` from reset. -/
theorem test_new_status : inNext (execOn .nominal (.new 0) .reset) State.status = some 0x00000089#32 ∧
    inNext (execOn .nominal (.new 2) .reset) State.status = some 0x000000A9#32 := by decide
/-- 95 section 2.1: BAD_POLICY comes before ALREADY_BOUND, also for code `01` without the extra policies. -/
theorem test_new_faults : inNext (execOn .nominal (.new 3) idleBrg) State.status = some 0x0003008C#32 ∧
    inNext (execOn .nominal (.new 0) idleBrg) State.status = some 0x0005008C#32 ∧
    inNext (execOn plain (.new 1) .reset) State.status = some 0x00030084#32 := by decide
/-- R117's example: `WRITE 255, 0, 0` under BRG sets SEQ to `0x00FF00`. -/
theorem test_write_seq : inNext (exec (.write 255 0 0) idleBrg) (fun u => (u.seq, u.engState, u.hostIdx)) =
    some (0x00FF00#24, .emitting, 2) := by decide
/-- 95 section 2.1: `WRITE` from UNBOUND. -/
theorem test_write_unbound : inNext (exec (.write 255 0 0) .reset) State.status = some 0x00040084#32 := by decide
/-- R120: `END_FRAME`'s acceptance changes no pin. -/
theorem test_endFrame_accepted : inNext (exec .endFrame idleBrg) (fun u => (u.engState, u.pin, u.trace)) =
    some (.latching, .unknown, []) := by decide
/-- 95 section 2.5: any command in FAULTED only moves HOST_IDX. -/
theorem test_endFrame_faulted : exec .endFrame faulted = .next { faulted with hostIdx := 1 } := rfl
/-- R103's example. -/
theorem test_driveHigh : inNext (execOn .nominal .driveHigh .reset) (fun u => (u.pin, u.trace, u.t)) =
    some (.high, [⟨0, .high⟩], 0) := by decide +kernel
/-- R104's example. -/
theorem test_driveLow : inNext (execOn .nominal .driveLow (at_ 800)) (fun u => (u.pin, u.trace, u.t)) =
    some (.low, [⟨800, .low⟩], 800) := by decide +kernel
/-- R91's, R92's and R93's examples. -/
theorem test_delayLong : inNext (execOn .nominal .delayLong (at_ 1000)) State.t = some 1800 := by decide +kernel
theorem test_delayShort : inNext (execOn .nominal .delayShort (at_ 1000)) State.t = some 1400 := by decide +kernel
theorem test_delayTrim : inNext (execOn .nominal .delayTrim (at_ 1000)) State.t = some 1050 := by decide +kernel
/-- R94's example. -/
theorem test_holdLatch : inNext (execOn .nominal .holdLatch (at_ 30000)) State.t = some 330000 := by decide +kernel

/-! ## Steps -/

/-- The sequencer takes micro-op 2 of a pulse to be `DRIVE_LOW` and goes on to PHASE 3 (R106, R118). -/
theorem test_step_emitting : inNext (stepOn .nominal (emittingAt 1 0 2)) (fun u => (u.pin, u.phase, u.microTrace)) =
    some (.low, 3, [0x11000000#32]) := by decide +kernel
/-- The fifth micro-op of pulse 23 completes the `WRITE` (R119). -/
theorem test_step_last_microOp : inNext (stepOn .nominal (emittingAt 1 23 4)) State.engState = some .idle := by
  decide +kernel
/-- The latch hold returns to IDLE (R123). -/
theorem test_step_latch_end : inNext (stepOn .nominal (latchingAt 1)) State.engState = some .idle := by decide +kernel
/-- A stall in EMITTING sets TV (R163; 95 section 2.6). -/
theorem test_stall_emitting :
    inNext (stepOn preemptible { emittingAt 1 0 2 with schedule := [.stall 100] }) (fun u => (u.tv, u.t, u.phase)) =
      some (true, 100, 2) := by decide +kernel
/-- A stall in LATCHING does not (R163; 95 section 2.6). -/
theorem test_stall_latching :
    inNext (stepOn preemptible { latchingAt 1 with schedule := [.stall 50000] }) (fun u => (u.tv, u.t)) =
      some (false, 50000) := by decide +kernel
/-- Before the first micro-op of all there is no stall: ENGINE moves (R97, R162; log entry 10). -/
theorem test_no_stall_at_start :
    inNext (stepOn preemptible { emittingAt 1 0 0 with schedule := [.stall 100] }) (fun u => (u.tv, u.phase, u.schedule)) =
      some (false, 1, []) := by decide +kernel
/-- After an earlier command's micro-op a stall may fall before a command's first one (R162; log entry 10). -/
theorem test_stall_between_commands :
    inNext (stepOn preemptible { emittingAt 1 0 0 with trace := [⟨0, .low⟩], t := 300000, schedule := [.stall 100] })
      (fun u => (u.tv, u.t, u.phase)) = some (true, 300100, 0) := by decide +kernel
/-- Without PREEMPTION there is no stall: ENGINE moves (R162). -/
theorem test_no_stall :
    inNext (stepOn .nominal { emittingAt 1 0 2 with schedule := [.stall 100] }) (fun u => (u.tv, u.phase)) =
      some (false, 3) := by decide +kernel
/-- A reset while EMITTING (R173; 95 section 2.6). -/
theorem test_reset_emitting :
    inNext (step { emittingAt 1 5 2 with schedule := [.reset] }) State.status = some 0x00000080#32 := by decide
/-- A gap waits while ENGINE runs a command (R115). -/
theorem test_gap_is_held :
    inNext (stepOn .nominal { emittingAt 1 0 0 with schedule := [.gap 5000] }) (fun u => (u.t, u.schedule)) =
      some (0, [.gap 5000]) := by decide +kernel
/-- 95 program P3: `WRITE` first faults NOT_BOUND. -/
theorem test_step_not_bound : inNext (step (State.withProgram [0x02010203#32, 0x01000000#32] [])) State.status =
    some 0x00040084#32 := by decide
/-- The table's micro-op word is what the next step runs. -/
theorem test_fetch_microOp : inNext (step (State.reset.withFetchWord 32 0x11000000)) State.pin = some .low := by decide
/-- The table's command word is what the next step runs. -/
theorem test_fetch_command : inNext (step (State.reset.withFetchWord 32 0x01000000)) State.status = some 0x00000089#32 := by
  decide

/-! ## The wire: 95 section 2.7 -/

/-- A bit's pulse as two events, starting at `t`. -/
def pulseEvents (t h : Ns) : List PinEvent := [⟨t, .high⟩, ⟨t + h, .low⟩]

/-- A latch, one pulse, a latch: one bit is no colour word (R143 d). -/
theorem test_wire_one_bit : decodeWire 0 (⟨0, .low⟩ :: pulseEvents 300000 800) 600800 = .malformed := by decide +kernel
/-- A high of 600 ns belongs to no class (R142). -/
theorem test_wire_halfway : classifyPulse 199 600 450 = none := by decide +kernel
/-- A high of 900 ns is a one under a tolerance of 100 ns (R142). -/
theorem test_wire_tolerance : classifyPulse 100 900 450 = some true ∧ classifyPulse 0 900 450 = none := by decide +kernel
/-- A trace that ends high (R143 b). -/
theorem test_wire_ends_high : decodeWire 0 [⟨0, .low⟩, ⟨300000, .high⟩] 300800 = .malformed := by decide +kernel
/-- Pulses before the first latch are discarded (R146, 95 program P8). -/
theorem test_wire_unsynchronised : decodeWire 0 (pulseEvents 0 400) 300400 = .decoded [] [] := by decide +kernel
/-- A pulse after a latch is pending until the next latch (R144). -/
theorem test_wire_pending : decodeWire 0 (⟨0, .low⟩ :: pulseEvents 300000 800) 301250 = .decoded [] [true] := by
  decide +kernel
/-- 95 program P9: two latch events, one low segment of 600 000 ns. -/
theorem test_segments_merge : segments .unknown [⟨0, .low⟩, ⟨300000, .low⟩] 600000 = [⟨.low, 0, 600000⟩] := by
  decide +kernel
/-- R138: of two events at one time the later in TRACE sets the level; before the first event it is UNKNOWN. -/
theorem test_wave : waveAt [⟨10, .high⟩, ⟨10, .low⟩] 20 10 = some .low ∧
    waveAt [⟨10, .high⟩, ⟨10, .low⟩] 20 9 = some .unknown := by decide +kernel
/-- R113: a pulse's high and low durations. -/
theorem test_logical_pulse : logicalPulses [⟨0, .high⟩, ⟨800, .low⟩, ⟨1250, .high⟩] = [⟨0, 800, some 450⟩] := by
  decide +kernel
/-- R113 where HIGH is driven while HIGH (R103): the low runs from the fall to the rise after it. -/
theorem test_logical_pulse_two_rises : logicalPulses [⟨0, .high⟩, ⟨100, .high⟩, ⟨800, .low⟩, ⟨1250, .high⟩] =
    [⟨0, 800, some 450⟩, ⟨100, 700, some 450⟩] := by decide +kernel
/-- R100's arithmetic: 13 and 6 cycles at 16 MHz. -/
theorem test_cycles : cycleDuration 13 16000000 = 1625 / 2 ∧ cycleDuration 6 16000000 = 375 := by decide +kernel

/-! ## The assembler -/

/-- 95 program P1's third line, with a comment (R70). -/
theorem test_assemble_line : assembleLine ['W', 'R', 'I', 'T', 'E', ' ', '2', '5', '5', ',', ' ', '0', 'x', '0', ',', '0', ';', 'x'] =
    .ok [0x02FF0000#32] := by decide
/-- An operand outside 0..255 is an assembler error (R70). -/
theorem test_assemble_range : assembleCommand (.write 256 0 0) = .error .operandRange := by decide
/-- `FRAME` and `BLANK` need at least one colour (R72, R73). -/
theorem test_assemble_empty : assembleCommand (.frame []) = .error .emptyFrame ∧
    assembleCommand (.blank 0) = .error .emptyFrame := by decide
/-- R75: `PULSE0` as micro-op words. -/
theorem test_assemble_pulse0 : assembleMicroLine ['P', 'U', 'L', 'S', 'E', '0'] =
    .ok [0x10000000#32, 0x21000000#32, 0x11000000#32, 0x20000000#32, 0x22000000#32] := by decide

/-! ## HOST's duties -/

/-- R126, R181: a frame left open is not framed; 95 program P1 is. -/
theorem test_framed : framed [.new 0, .endFrame, .write 255 0 0, .endFrame] = true ∧
    framed [.new 0, .write 255 0 0] = false := by decide

/-- R178, R190: two gaps in a row count together before a chained `WRITE`, and the gap before a frame does not count. -/
theorem test_frame_gaps :
    frameGapsWithin { Params.nominal with gapMax := 100, gapMax_nonneg := by decide +kernel }
      [.new 0, .endFrame, .write 1 0 0, .write 2 0 0] [.issue, .issue, .gap 9000, .issue, .gap 60, .gap 60, .issue] = false ∧
    frameGapsWithin { Params.nominal with gapMax := 100, gapMax_nonneg := by decide +kernel }
      [.new 0, .endFrame, .write 1 0 0, .write 2 0 0] [.issue, .issue, .gap 9000, .issue, .gap 60, .gap 40, .issue] = true := by
  decide +kernel

/-! ## Witnesses: for every statement with hypotheses, values that meet them all -/

theorem witness_DecodeOfEncode : (Instr.new 2).isCommand = true ∧ (Instr.new 2).wf true = true ∧
    (Instr.write 255 0 255).isCommand = true ∧ (Instr.write 255 0 255).wf false = true ∧
    Instr.endFrame.isCommand = true ∧ Instr.endFrame.wf false = true := by decide
theorem witness_EncodeOfDecode : decode 0x01000003#32 = .ok (.new 3) := by decide
theorem witness_OpcodeMapUnambiguous : decode 0x02FFFFFF#32 = .ok (.write 255 255 255) ∧
    (⟨0x01000000#32, 0xFFFFFFFC#32⟩ : OpcodeRow) ∈ opcodeRows ∧
    0x01000003#32 &&& 0xFFFFFFFC#32 = 0x01000000#32 := by decide
theorem witness_CommandPortDecoder : State.reset.accepting = true ∧ idleBrg.accepting = true := by decide
theorem witness_IllegalOpcodeFaults : State.reset.accepting = true ∧ idleBrg.accepting = true ∧
    opcOf 0x04000000#32 ≠ 0x01 ∧ opcOf 0x04000000#32 ≠ 0x02 ∧ opcOf 0x04000000#32 ≠ 0x03 := by decide
theorem witness_MicroOpsIllegalForHost : idleBrg.accepting = true ∧
    opcOf 0x23FFFFFF#32 ∈ [0x10#8, 0x11#8, 0x20#8, 0x21#8, 0x22#8, 0x23#8] ∧ Instr.driveLow.isCommand = false := by decide
theorem witness_ReservedBitsFault : idleBrg.accepting = true ∧ opcOf 0x01000004#32 = 0x01 ∧
    newReservedOf 0x01000004#32 ≠ 0 ∧ opcOf 0x03000001#32 = 0x03 ∧ argOf 0x03000001#32 ≠ 0 := by decide
/-- The bit maps' index at both ends of its range. -/
theorem witness_BitMaps : (0 : Nat) < 8 ∧ (7 : Nat) < 8 ∧ (23 : Nat) < 24 := by decide
theorem witness_IsNominal : Params.nominal.IsNominal := Params.nominal_isNominal
theorem witness_DelaysWithinTolerance : ∃ u v w, exec .delayLong State.reset = .next u ∧
    exec .delayShort State.reset = .next v ∧ exec .delayTrim State.reset = .next w := ⟨_, _, _, rfl, rfl, rfl⟩
theorem witness_OnePulseRun : (emittingAt 1 0 0).engState = .emitting ∧ (emittingAt 1 0 0).bitIdx.toNat < 24 ∧
    (emittingAt 1 0 0).phase = 0 ∧ (emittingAt 1 0 0).undisturbed = true ∧ (emittingAt 0 23 0).bitIdx.toNat < 24 ∧
    (emittingAt 0 23 0).undisturbed = true := by decide
theorem witness_EqualPulsePeriod : Params.nominal.long.tol = 0 ∧ Params.nominal.short.tol = 0 ∧
    Params.nominal.trim.tol = 0 ∧ (inNext (runOn .nominal 5 (emittingAt 1 0 0)) State.t).isSome = true := by
  decide +kernel
theorem witness_NewCompletes : State.reset.accepting = true ∧ State.reset.bound = false ∧
    policyOf Config.params.hasExtraPolicies 0 = some .brg := ⟨by decide, by decide, rfl⟩
theorem witness_NewFaults : State.reset.accepting = true ∧ policyOf Config.params.hasExtraPolicies 3 = none ∧
    idleBrg.accepting = true ∧ idleBrg.bound = true ∧ policyOf Config.params.hasExtraPolicies 0 = some .brg :=
  ⟨by decide, rfl, by decide, by decide, rfl⟩
theorem witness_WriteCompletes : idleBrg.accepting = true ∧ idleBrg.bound = true ∧ idleBrg.policy = some .brg := by decide
theorem witness_EndFrameCompletes : idleBrg.accepting = true ∧ idleBrg.bound = true := by decide
theorem witness_NotBoundFaults : State.reset.accepting = true ∧ State.reset.bound = false := by decide
theorem witness_FaultAction : State.reset.accepting = true ∧
    inNext (issueWord exec 0x02000000#32 State.reset) State.engState = some .faulted := by decide
theorem witness_FaultedIgnoresWords : faulted.engState = .faulted ∧ (Instr.new 0).isCommand = true := by decide
theorem witness_FaultedIsSticky :
    (inNext (step { faulted with stream := [0#32] }) State.hostIdx).isSome = true ∧
    (inNext (step { faulted with schedule := [.reset] }) State.hostIdx).isSome = true := by decide
theorem witness_OrderOfChecks : State.reset.accepting = true ∧ idleBrg.accepting = true := by decide
theorem witness_StepRunsCommand_anyWord :
    State.running { faulted with stream := [0#32] } = false ∧ State.nextWord { faulted with stream := [0#32] } = some 0#32 ∧
    State.running (State.withProgram [0x10000000#32] [.issue, .gap 1]) = false ∧
    State.nextWord (State.withProgram [0x10000000#32] [.issue, .gap 1]) = some 0x10000000#32 := by decide
theorem witness_StepRunsCommand :
    State.accepting { idleBrg with stream := [0#32, 0x02FF0000#32] } = true ∧
    State.nextWord { idleBrg with stream := [0#32, 0x02FF0000#32] } = some 0x02FF0000#32 ∧
    decodeCommand Config.params.hasExtraPolicies 0x02FF0000#32 = .ok (.write 255 0 0) ∧
    decodeCommand Config.params.hasExtraPolicies 0x01000000#32 = .ok (.new 0) ∧
    State.nextWord { idleBrg with stream := [0#32, 0x03000000#32], schedule := [.issue, .gap 1] } = some 0x03000000#32 ∧
    decodeCommand Config.params.hasExtraPolicies 0x03000000#32 = .ok .endFrame :=
  ⟨by decide, by decide, rfl, rfl, by decide, rfl⟩
theorem witness_StepRunsMicroOp : (emittingAt 1 23 1).running = true ∧ (emittingAt 1 23 1).undisturbed = true ∧
    (emittingAt 1 23 1).selectedMicroOp = some .delayShort ∧ (latchingAt 1).running = true ∧
    (latchingAt 1).undisturbed = true ∧ (latchingAt 1).selectedMicroOp = some .holdLatch := by decide
theorem witness_StepRunsMicroOp_requested :
    State.running { emittingAt 1 0 1 with schedule := [.microOp, .stall 100] } = true ∧
    State.selectedMicroOp { emittingAt 1 0 1 with schedule := [.microOp, .stall 100] } = some .delayLong := by decide
theorem witness_SequencerPosition : (emittingAt 1 23 3).engState = .emitting ∧ (emittingAt 1 23 3).bitIdx.toNat < 24 ∧
    (emittingAt 1 23 3).phase.toNat < 4 ∧ (emittingAt 1 22 4).phase = 4 ∧ (emittingAt 1 22 4).bitIdx.toNat < 23 ∧
    (emittingAt 1 23 4).bitIdx = 23 ∧ (latchingAt 0).engState = .latching ∧ (latchingAt 0).phase = 0 ∧
    (latchingAt 1).phase = 1 ∧ idleBrg.running = false := by decide
theorem witness_HostIsHeld : (emittingAt 1 0 2).running = true ∧
    (inNext (step { emittingAt 1 0 2 with schedule := [.gap 0] }) State.schedule).isSome = true ∧
    (inNext (step { latchingAt 0 with schedule := [.issue] }) State.schedule).isSome = true ∧
    (inNext (step (emittingAt 1 0 2)) State.hostIdx).isSome = true ∧
    (inNext (step { emittingAt 1 0 2 with schedule := [.reset] }) State.hostIdx).isSome = true := by decide
theorem witness_GapOnlyAdvancesTime : State.running { idleBrg with schedule := [.gap 0] } = false ∧ (0 : Ns) ≤ 0 := by
  decide +kernel
theorem witness_RunEnds : State.reset.running = false ∧ State.reset.schedule = [] ∧ State.reset.nextWord = none := by
  decide
theorem witness_WriteRun : (emittingAt 0x00FF00 0 0).engState = .emitting ∧ (emittingAt 0x00FF00 0 0).bitIdx = 0 ∧
    (emittingAt 0x00FF00 0 0).phase = 0 ∧ (emittingAt 0x00FF00 0 0).undisturbed = true ∧ 119 < 120 := by decide
theorem witness_NominalWriteWaveform : Params.nominal.IsNominal ∧ (emittingAt 1 0 0).engState = .emitting ∧
    (emittingAt 1 0 0).bitIdx = 0 ∧ (emittingAt 1 0 0).phase = 0 ∧ (emittingAt 1 0 0).undisturbed = true :=
  ⟨Params.nominal_isNominal, by decide⟩
theorem witness_EndFrameRun : (latchingAt 0).engState = .latching ∧ (latchingAt 0).phase = 0 ∧
    (latchingAt 0).undisturbed = true ∧ 0 ≤ (latchingAt 0).t ∧ (latchingAt 0).t ≤ (latchingAt 0).t := by decide +kernel
theorem witness_StallEffects : preemptible.preemption = true ∧ (0 : Ns) < 100 ∧
    (emittingAt 1 0 2).engState = .emitting ∧ (emittingAt 1 0 2).phase ≠ 0 ∧ (emittingAt 1 1 0).bitIdx ≠ 0 ∧
    (latchingAt 1).engState = .latching ∧ (latchingAt 1).phase ≠ 0 ∧ Params.nominal.preemption = false ∧
    State.trace { emittingAt 1 0 0 with trace := [⟨0, .low⟩] } ≠ [] ∧ (0 : Ns) ≤ 0 ∧ idleBrg.running = false ∧
    (emittingAt 1 0 0).phase = 0 ∧ (emittingAt 1 0 0).bitIdx = 0 ∧ (emittingAt 1 0 0).trace = [] ∧
    (latchingAt 0).phase = 0 ∧ (latchingAt 0).trace = [] := by decide +kernel
theorem witness_FlagsAreSticky : (inNext (stepOn preemptible { emittingAt 1 0 2 with schedule := [.stall 100] })
    State.tv) = some true := by decide +kernel
theorem witness_ResetTakesEffectAnywhere :
    State.schedule { emittingAt 1 5 2 with schedule := [.reset, .issue] } = .reset :: [.issue] := rfl
theorem witness_StatusFields : State.reset.bound = false ∧ idleBrg.bound = true ∧ idleBrg.policy = some .brg := by decide

/-- The state after reset satisfies the invariant of every instance. -/
theorem witness_reset_inv (p : Params) (ws : List Word) : (State.withProgram ws []).Inv p := by
  constructor <;> simp [State.withProgram, State.reset, traceLevel, State.highPhase]

theorem witness_StepKeepsInvariant : (State.withProgram [0x01000000#32] []).Inv Config.params ∧
    inNext (step (State.withProgram [0x01000000#32] [])) State.engState = some .idle :=
  ⟨witness_reset_inv _ _, by decide⟩
theorem witness_StepsUntilTheEnd : (State.withProgram [] []).Inv Config.params ∧
    (State.withProgram [] []).ended = true := ⟨witness_reset_inv _ _, by decide⟩
theorem witness_BindingIsForLife : idleBrg.bound = true ∧
    (inNext (step { idleBrg with stream := [0#32, 0x03000000#32] }) State.bound) = some true ∧
    State.bound (State.withProgram [0x01000000#32] []) = false ∧
    (inNext (step (State.withProgram [0x01000000#32] [])) State.bound) = some true := by decide
theorem witness_every_step : (inNext (step (emittingAt 1 0 0)) State.pin) = some .high ∧
    (inNext (step (latchingAt 0)) State.pin) = some .low ∧
    (inNext (step { idleBrg with stream := [0#32, 0x03000000#32] }) State.hostIdx) = some 2 ∧
    (inNext (step { idleBrg with schedule := [.reset] }) State.hostIdx) = some 0 := by decide
theorem witness_LevelPersists : (0 : Ns) ≤ 800 ∧ (800 : Ns) ≤ 1250 ∧
    (∀ f ∈ [(⟨1250, .high⟩ : PinEvent)], (1249 : Ns) < f.time) ∧ (800 : Ns) ≤ 1249 := by decide +kernel
theorem witness_SegmentsAreMaximal : (pulseEvents 10 800).Pairwise (fun e f => e.time ≤ f.time) ∧
    (∀ e ∈ pulseEvents 10 800, 0 ≤ e.time ∧ e.time ≤ 1250) ∧ (0 : Ns) ≤ 1250 ∧
    segments .unknown (pulseEvents 10 800) 1250 = [⟨.unknown, 0, 10⟩, ⟨.high, 10, 800⟩, ⟨.low, 810, 440⟩] := by
  decide +kernel
theorem witness_NothingBeforeTheFirstLatch : ∀ x ∈ drivenSegments (pulseEvents 0 800) 1250, x.isLatch = false := by
  decide +kernel
theorem witness_PulseClassification : (0 : Ns) ≤ 199 ∧ (199 : Ns) < 200 ∧ (0 : Ns) ≤ 0 := by decide +kernel
/-- An instance whose receivers tolerate 10 ns of gap inside a frame. -/
def tolerant : Params := { Params.nominal with tolRx := 10, tolRx_nonneg := by decide +kernel, tolRx_lt := by decide +kernel }
theorem witness_DecodingTheorem : [(⟨255, 0, 0⟩ : Colour), ⟨0, 1, 2⟩] ≠ [] ∧
    policyOf tolerant.hasExtraPolicies 2 = some .grb ∧
    tolerant.dDrv + tolerant.long.tol ≤ tolerant.tolRx ∧ tolerant.dDrv + tolerant.short.tol ≤ tolerant.tolRx ∧
    tolerant.dDrv + tolerant.short.tol + tolerant.trim.tol ≤ tolerant.tolRx ∧
    tolerant.dDrv + tolerant.long.tol + tolerant.trim.tol ≤ tolerant.tolRx := by decide +kernel
theorem witness_DecodingTheorem_gaps : ∃ (a b c d : Ns) (h : Nat → Ns), 0 ≤ a ∧ 0 ≤ b ∧ 0 ≤ c ∧ 0 ≤ d ∧ (∀ k, 0 ≤ h k) ∧
    (∀ k, 0 < k → tolerant.dDrv + tolerant.short.tol + tolerant.trim.tol + h k ≤ tolerant.tolRx ∧
      tolerant.dDrv + tolerant.long.tol + tolerant.trim.tol + h k ≤ tolerant.tolRx) ∧
    [.gap 5, .issue, .gap 0, .issue, .gap 10, .issue, .gap 10, .issue, .gap 700, .issue, .gap 1] =
      [Move.gap a, .issue, .gap b, .issue] ++
        (List.range [(⟨255, 0, 0⟩ : Colour), ⟨0, 1, 2⟩].length).flatMap (fun k => [.gap (h k), .issue]) ++
        [.gap c, .issue, .gap d] :=
  ⟨5, 0, 700, 1, fun _ => 10, by decide +kernel, by decide +kernel, by decide +kernel, by decide +kernel,
    fun _ => (by decide +kernel : (0 : Ns) ≤ 10),
    fun _ _ => (by decide +kernel : (0 : Ns) + 0 + 0 + 10 ≤ 10 ∧ (0 : Ns) + 0 + 0 + 10 ≤ 10), rfl⟩
theorem witness_GapsAddUp : idleBrg.running = false ∧ (∀ g ∈ [(60 : Ns), 0], 0 ≤ g) ∧
    State.schedule { idleBrg with schedule := [.gap 60, .gap 0, .issue, .gap 1] } =
      [(60 : Ns), 0].map Move.gap ++ .issue :: [.gap 1] := by decide +kernel
theorem witness_AssemblerWords : (parseMicro ['P', 'U', 'L', 'S', 'E', '1']).isSome = true ∧ (255 : Nat) < 256 ∧ 256 ≤ 256 ∧ (1 : Nat) ≤ 1 ∧ [(⟨1, 2, 3⟩ : Colour)] ≠ [] := by decide

end Sys2Proof.Tests
end

section
/-!
PROOFS. `NEW` in a state that is not bound (43_writer_engine.md R115, R116).
-/
namespace Sys2Proof.Machine

theorem State.accepting_iff (s : State) : s.accepting = true ↔ s.engState = .unbound ∨ s.engState = .idle := by
  simp [State.accepting]

/-- BRG is implemented with and without the extra policies (R60). -/
theorem policyOf_zero (hasExtra : Bool) : policyOf hasExtra 0 = some .brg := if_pos rfl

/-- Both checks of `NEW` pass (R153 steps 1 and 2), so it takes its word and binds. -/
theorem newOn_of_accepting {p : Params} {pol : BitVec 2} {q : Policy} {s : State} (ha : s.accepting = true)
    (hb : s.bound = false) (hq : policyOf p.hasExtraPolicies pol = some q) :
    newOn p pol s = .next (s.takeWord.bindPolicy q) := by
  unfold newOn
  rw [issueCommand_resting _ (s.accepting_iff.mp ha)]
  simp [hq, hb]

/-- Settles O22: neither check of `NEW` fails, and what its acceptance leaves is the state the statement writes out. -/
theorem newCompletes : Obligations.NewCompletes :=
  ⟨fun _ _ _ ha hb hq => newOn_of_accepting ha hb hq, policyOf_zero _⟩

end Sys2Proof.Machine
end

section
/-!
PROOFS. An undisturbed pulse, micro-op by micro-op (42_pulse_emitter.md R106 to R108; 43_writer_engine.md R118), and the
state some number of whole pulses leaves. The two pulses are treated as one: a one and a zero differ only in which delay
comes first (`pulseFor_eq`).
-/
namespace Sys2Proof.Machine

/-! ### The micro-ops of a pulse -/

/-- The delay that makes the high phase of a pulse for bit `b` (R106, R107). -/
def highDelay (b : Bool) : Instr := if b then .delayLong else .delayShort

/-- The first delay of the low phase of a pulse for bit `b` (R106, R107). -/
def lowDelay (b : Bool) : Instr := if b then .delayShort else .delayLong

/-- What `highDelay b` takes as the delay numbered `n`. -/
def highTime (p : Params) (b : Bool) (n : Nat) : Ns := if b then p.long.draw n else p.short.draw n

/-- What `lowDelay b` takes as the delay numbered `n`. -/
def lowTime (p : Params) (b : Bool) (n : Nat) : Ns := if b then p.short.draw n else p.long.draw n

theorem pulseFor_eq (b : Bool) : pulseFor b = [.driveHigh, highDelay b, .driveLow, lowDelay b, .delayTrim] := by
  cases b <;> rfl

theorem afterOp_highDelay (p : Params) (b : Bool) (s : State) :
    afterOp p (highDelay b) s = { s with t := s.t + highTime p b s.draws, draws := s.draws + 1 } := by
  cases b <;> rfl

theorem afterOp_lowDelay (p : Params) (b : Bool) (s : State) :
    afterOp p (lowDelay b) s = { s with t := s.t + lowTime p b s.draws, draws := s.draws + 1 } := by
  cases b <;> rfl

@[simp] theorem afterOp_engState (p : Params) (i : Instr) (s : State) : (afterOp p i s).engState = s.engState := by
  cases i <;> rfl

@[simp] theorem afterOp_phase (p : Params) (i : Instr) (s : State) : (afterOp p i s).phase = s.phase := by
  cases i <;> rfl

/-! ### One step inside a pulse -/

/-- The sequence element the position stands at (R118). -/
def State.bit (s : State) : Bool := s.seq.getLsbD s.bitIdx.toNat

/-- ENGINE emits one of the 24 pulses and nothing is due before HOST's next own move (R115, R118). -/
structure State.Pulsing (s : State) : Prop where
  emitting : s.engState = .emitting
  bitIdx_lt : s.bitIdx.toNat < 24
  undisturbed : s.undisturbed = true

theorem State.undisturbed_congr {s u : State} (h : u.schedule = s.schedule) : u.undisturbed = s.undisturbed := by
  simp only [State.undisturbed, h]

/-- Before the trim the sequencer advances PHASE alone (R118). -/
theorem State.afterMicroOp_inside {s : State} {i : Instr} (he : s.engState = .emitting) (hp : s.phase.toNat < 4) :
    s.afterMicroOp i = { s.recordMicroOp (encode i) with phase := s.phase + 1 } := by
  simp [State.afterMicroOp, State.advancePosition, State.advanceEmitting, he, hp]

/-- After the trim the position is the next pulse's start, or the `WRITE` is over (R118, R119). -/
theorem State.afterMicroOp_last {s : State} {i : Instr} (he : s.engState = .emitting) (hp : s.phase = 4) :
    s.afterMicroOp i = { s.recordMicroOp (encode i) with
      engState := if s.bitIdx.toNat = 23 then .idle else .emitting
      bitIdx := s.bitIdx + 1
      phase := 0 } := by
  by_cases hb : s.bitIdx.toNat = 23
  · simp [State.afterMicroOp, State.advancePosition, State.advanceEmitting, he, hp, hb, Config.nBits]
  · simp [State.afterMicroOp, State.advancePosition, State.advanceEmitting, he, hp, hb, Config.nBits,
      State.recordMicroOp]

section
variable {p : Params} {s : State}

theorem runOn_succ_of_next {u : State} {k : Nat} (h : stepOn p s = .next u) : runOn p (k + 1) s = runOn p k u := by
  simp only [runOn, h]

theorem stepOn_of_pulsing {i : Instr} (h : s.Pulsing)
    (hi : [.driveHigh, highDelay s.bit, .driveLow, lowDelay s.bit, .delayTrim][s.phase.toNat]? = some i) :
    stepOn p s = .next ((afterOp p i s).afterMicroOp i) := by
  obtain ⟨he, hn, hu⟩ := h
  have hsel : s.selectedMicroOp = some i := by
    simp only [State.selectedMicroOp, he]
    rw [← pulseFor_eq] at hi
    exact (if_pos hn).trans hi
  exact stepOn_of_selected (by simp [State.running, he]) hu hsel

theorem stepOn_inside_pulse {k : BitVec 3} {i : Instr} (h : s.Pulsing) (hp : s.phase = k) (hk : k.toNat < 4)
    (hi : [.driveHigh, highDelay s.bit, .driveLow, lowDelay s.bit, .delayTrim][k.toNat]? = some i) :
    stepOn p s = .next { (afterOp p i s).recordMicroOp (encode i) with phase := k + 1 } := by
  subst hp
  rw [stepOn_of_pulsing h hi, State.afterMicroOp_inside (by simp [h.emitting]) (by simpa using hk), afterOp_phase]

theorem stepOn_pulse_rise (h : s.Pulsing) (hp : s.phase = 0) :
    stepOn p s = .next { s with
      pin := .high
      trace := s.trace ++ [⟨s.t, .high⟩]
      t := s.t + p.dDrv
      phase := 1
      microTrace := s.microTrace ++ [encode .driveHigh] } :=
  stepOn_inside_pulse h hp (by decide) rfl

theorem stepOn_pulse_highDelay (h : s.Pulsing) (hp : s.phase = 1) :
    stepOn p s = .next { s with
      t := s.t + highTime p s.bit s.draws
      draws := s.draws + 1
      phase := 2
      microTrace := s.microTrace ++ [encode (highDelay s.bit)] } := by
  rw [stepOn_inside_pulse h hp (by decide) rfl, afterOp_highDelay]
  rfl

theorem stepOn_pulse_fall (h : s.Pulsing) (hp : s.phase = 2) :
    stepOn p s = .next { s with
      pin := .low
      trace := s.trace ++ [⟨s.t, .low⟩]
      t := s.t + p.dDrv
      phase := 3
      microTrace := s.microTrace ++ [encode .driveLow] } :=
  stepOn_inside_pulse h hp (by decide) rfl

theorem stepOn_pulse_lowDelay (h : s.Pulsing) (hp : s.phase = 3) :
    stepOn p s = .next { s with
      t := s.t + lowTime p s.bit s.draws
      draws := s.draws + 1
      phase := 4
      microTrace := s.microTrace ++ [encode (lowDelay s.bit)] } := by
  rw [stepOn_inside_pulse h hp (by decide) rfl, afterOp_lowDelay]
  rfl

theorem stepOn_pulse_trim (h : s.Pulsing) (hp : s.phase = 4) :
    stepOn p s = .next { s with
      engState := if s.bitIdx.toNat = 23 then .idle else .emitting
      bitIdx := s.bitIdx + 1
      phase := 0
      t := s.t + p.trim.draw s.draws
      draws := s.draws + 1
      microTrace := s.microTrace ++ [encode .delayTrim] } := by
  rw [stepOn_of_pulsing (i := .delayTrim) h (by rw [hp]; rfl),
    State.afterMicroOp_last (by simp [h.emitting]) (by simpa using hp)]
  rfl

/-! ### Whole pulses -/

/-- What one undisturbed pulse from its start leaves (R106, R107, R118). -/
def State.afterPulse (p : Params) (s : State) : State :=
  { s with
    engState := if s.bitIdx.toNat = 23 then .idle else .emitting
    bitIdx := s.bitIdx + 1
    phase := 0
    pin := .low
    draws := s.draws + 3
    microTrace := s.microTrace ++ (pulseFor s.bit).map encode
    trace := s.trace ++ [⟨s.t, .high⟩, ⟨s.t + p.dDrv + highTime p s.bit s.draws, .low⟩]
    t := s.t + p.dDrv + highTime p s.bit s.draws + p.dDrv + lowTime p s.bit (s.draws + 1) +
      p.trim.draw (s.draws + 2) }

theorem runOn_pulse (h : s.Pulsing) (hp : s.phase = 0) : runOn p 5 s = .next (s.afterPulse p) := by
  have ⟨he, hn, hu⟩ := h
  refine Eq.trans (runOn_succ_of_next (stepOn_pulse_rise h hp)) ?_
  refine Eq.trans (runOn_succ_of_next (stepOn_pulse_highDelay ⟨he, hn, hu⟩ rfl)) ?_
  refine Eq.trans (runOn_succ_of_next (stepOn_pulse_fall ⟨he, hn, hu⟩ rfl)) ?_
  refine Eq.trans (runOn_succ_of_next (stepOn_pulse_lowDelay ⟨he, hn, hu⟩ rfl)) ?_
  refine Eq.trans (runOn_succ_of_next (stepOn_pulse_trim ⟨he, hn, hu⟩ rfl)) ?_
  simp [runOn, State.afterPulse, State.bit, pulseFor_eq]

/-- What `k` undisturbed pulses leave. -/
def State.afterPulses (p : Params) (k : Nat) (s : State) : State := (State.afterPulse p)^[k] s

theorem State.afterPulses_succ (k : Nat) : s.afterPulses p (k + 1) = (s.afterPulses p k).afterPulse p :=
  Function.iterate_succ_apply' _ _ _

@[simp] theorem State.afterPulses_seq (k : Nat) : (s.afterPulses p k).seq = s.seq := by
  induction k with
  | zero => rfl
  | succ k ih => rw [afterPulses_succ]; exact ih

@[simp] theorem State.afterPulses_schedule (k : Nat) : (s.afterPulses p k).schedule = s.schedule := by
  induction k with
  | zero => rfl
  | succ k ih => rw [afterPulses_succ]; exact ih

theorem State.afterPulses_phase (hp : s.phase = 0) (k : Nat) : (s.afterPulses p k).phase = 0 := by
  cases k with
  | zero => exact hp
  | succ k => rw [afterPulses_succ]; rfl

theorem State.afterPulses_bitIdx (hb : s.bitIdx = 0) {k : Nat} (hk : k ≤ 24) :
    (s.afterPulses p k).bitIdx.toNat = k := by
  induction k with
  | zero => simp [State.afterPulses, hb]
  | succ k ih =>
    have hprev := ih (by omega)
    have hlt : k + 1 < 2 ^ 5 := by omega
    rw [afterPulses_succ]
    simp only [State.afterPulse, BitVec.toNat_add, hprev]
    exact Nat.mod_eq_of_lt hlt

theorem State.afterPulses_bit (hb : s.bitIdx = 0) {k : Nat} (hk : k ≤ 24) :
    (s.afterPulses p k).bit = s.seq.getLsbD k := by
  rw [State.bit, afterPulses_seq, afterPulses_bitIdx hb hk]

/-- The `WRITE` ends with its last pulse and not before (R119). -/
theorem State.afterPulses_engState (he : s.engState = .emitting) (hb : s.bitIdx = 0) {k : Nat} (hk : k < 24) :
    (s.afterPulses p k).engState = .emitting := by
  cases k with
  | zero => exact he
  | succ k =>
    have hn : (s.afterPulses p k).bitIdx.toNat ≠ 23 := by
      rw [afterPulses_bitIdx hb (by omega)]
      omega
    rw [afterPulses_succ]
    exact if_neg hn

theorem State.afterPulses_pulsing (h : s.Pulsing) (hb : s.bitIdx = 0) {k : Nat} (hk : k < 24) :
    (s.afterPulses p k).Pulsing where
  emitting := afterPulses_engState h.emitting hb hk
  bitIdx_lt := by rwa [afterPulses_bitIdx hb hk.le]
  undisturbed := (State.undisturbed_congr (afterPulses_schedule k)).trans h.undisturbed

/-- A run from a `WRITE`'s acceptance, pulse after pulse (R118). -/
theorem runOn_pulses (h : s.Pulsing) (hb : s.bitIdx = 0) (hp : s.phase = 0) {k : Nat} (hk : k ≤ 24) :
    runOn p (5 * k) s = .next (s.afterPulses p k) := by
  induction k with
  | zero => rfl
  | succ k ih =>
    rw [Nat.mul_succ, runOn_add p _ _ _ _ (ih (by omega)),
      runOn_pulse (State.afterPulses_pulsing h hb (by omega)) (State.afterPulses_phase hp k), State.afterPulses_succ]

end

end Sys2Proof.Machine
end

section
/-!
PROOFS. The waveform of an undisturbed `WRITE` in the nominal model (00_scope.md R8; 43_writer_engine.md R130; R185): every
pulse takes 1250 ns, whatever its bit, so pulse `k` starts `1250·k` ns after the acceptance.
-/
namespace Sys2Proof.Machine

/-- The nominal high phase of a pulse for bit `b` (R106, R107). -/
def nominalHigh (b : Bool) : Ns := if b then 800 else 400

/-- The two events of a nominal pulse for bit `b` that starts at `t`. -/
def nominalPulse (t : Ns) (b : Bool) : List PinEvent := [⟨t, .high⟩, ⟨t + nominalHigh b, .low⟩]

section
variable {p : Params} {s : State}

theorem highTime_nominal (hnom : p.IsNominal) (b : Bool) (n : Nat) : highTime p b n = nominalHigh b := by
  cases b
  · exact hnom.short n
  · exact hnom.long n

/-- A longer high phase shortens the low phase by as much (R109). -/
theorem lowTime_nominal (hnom : p.IsNominal) (b : Bool) (n : Nat) : lowTime p b n = 1200 - nominalHigh b := by
  cases b
  · exact (hnom.long n).trans (by norm_num [nominalHigh, Config.tLong])
  · exact (hnom.short n).trans (by norm_num [nominalHigh, Config.tShort])

theorem State.afterPulse_t_nominal (hnom : p.IsNominal) : (s.afterPulse p).t = s.t + 1250 := by
  simp only [State.afterPulse, highTime_nominal hnom, lowTime_nominal hnom, hnom.dDrv, hnom.trim, Config.tTrim]
  ring

theorem State.afterPulse_trace_nominal (hnom : p.IsNominal) :
    (s.afterPulse p).trace = s.trace ++ nominalPulse s.t s.bit := by
  simp [State.afterPulse, nominalPulse, highTime_nominal hnom, hnom.dDrv]

theorem State.afterPulses_t_nominal (hnom : p.IsNominal) (k : Nat) :
    (s.afterPulses p k).t = s.t + 1250 * (k : Rat) := by
  induction k with
  | zero => simp [State.afterPulses]
  | succ k ih =>
    rw [afterPulses_succ, afterPulse_t_nominal hnom, ih]
    push_cast
    ring

theorem State.afterPulses_trace_nominal (hnom : p.IsNominal) (hb : s.bitIdx = 0) {k : Nat} (hk : k ≤ 24) :
    (s.afterPulses p k).trace = s.trace ++
      (List.range k).flatMap fun j : Nat => nominalPulse (s.t + 1250 * (j : Rat)) (s.seq.getLsbD j) := by
  induction k with
  | zero => simp [State.afterPulses]
  | succ k ih =>
    have hprev : k ≤ 24 := by omega
    rw [afterPulses_succ, afterPulse_trace_nominal hnom, ih hprev, afterPulses_t_nominal hnom,
      afterPulses_bit hb hprev, List.range_succ, List.flatMap_append, List.flatMap_singleton, List.append_assoc]

end

/-- Settles O38: the run is 24 pulses of five micro-ops each, and the trace and the time of any number of nominal pulses
are known by induction on that number. -/
theorem nominalWriteWaveform : Obligations.NominalWriteWaveform := by
  intro p s hnom he hb hp hu
  have h : s.Pulsing := ⟨he, by simp [hb], hu⟩
  refine ⟨s.afterPulses p 24, runOn_pulses h hb hp le_rfl, ?_, State.afterPulses_trace_nominal hnom hb le_rfl⟩
  rw [State.afterPulses_t_nominal hnom]
  norm_num

end Sys2Proof.Machine
end

section
/-!
PROOFS. What every step can do, once for all the statements about every step: `stepOn_next` of Laws/Engine.lean with HOST's
issue (43_writer_engine.md R115; 60_exceptions.md R153) and ENGINE's micro-op (R128) taken apart, one constructor per
outcome.
-/
namespace Sys2Proof.Machine

/-! ### HOST's issue of a word -/

/-- What HOST's issue of `w` leaves of a state that runs no command (R115, R131, R153). -/
inductive Issued (p : Params) (w : Word) (s : State) : State → Prop
  | ignored (hf : s.engState = .faulted) : Issued p w s s.takeWord
  | rejected (c : FaultCode) (ha : s.accepting = true) (hc : c ≠ .noFault) : Issued p w s (s.takeWord.raiseFault c)
  | bound (pol : BitVec 2) (q : Policy) (ha : s.accepting = true) (hw : decode w = .ok (.new pol))
      (hq : policyOf p.hasExtraPolicies pol = some q) (hb : s.bound = false) : Issued p w s (s.takeWord.bindPolicy q)
  | writing (bits : ColourWord) (ha : s.accepting = true) (hb : s.bound = true) :
      Issued p w s (s.takeWord.startWrite bits)
  | latching (ha : s.accepting = true) (hb : s.bound = true) : Issued p w s s.takeWord.startLatch

theorem State.running_iff (s : State) : s.running = true ↔ s.engState = .emitting ∨ s.engState = .latching := by
  cases he : s.engState <;> simp [State.running, he]

theorem State.running_of_accepting {s : State} (ha : s.accepting = true) : s.running = false := by
  rcases s.accepting_iff.mp ha with h | h <;> simp [State.running, h]

theorem State.accepting_of_resting {s : State} (hr : s.running = false) (hf : s.engState ≠ .faulted) :
    s.accepting = true := by
  rw [State.accepting_iff]
  cases he : s.engState <;> simp_all [State.running]

theorem bareRow_eq_error {w : Word} {i : Instr} {c c' : FaultCode} :
    bareRow w i c = .error c' ↔ argOf w ≠ 0 ∧ c = c' := by
  unfold bareRow
  split <;> simp_all

theorem decode_ne_noFault (w : Word) : decode w ≠ .error .noFault := by
  unfold decode
  split_ifs <;> simp [bareRow_eq_error]

/-- No word the port rejects goes without a fault code (R71, R152). -/
theorem portCommand_error {w : Word} {c : FaultCode} (h : portCommand w = .error c) : c ≠ .noFault := by
  unfold portCommand at h
  split at h
  · next hd =>
    cases h
    rintro rfl
    exact decode_ne_noFault w hd
  · split at h
    · cases h
    · cases h; decide

/-- An accepted command's own outcomes (R116, R117, R120, R153). -/
theorem issued_of_execOn {p : Params} {w : Word} {i : Instr} {s u : State} (ha : s.accepting = true)
    (hi : portCommand w = .ok i) (h : execOn p i s = .next u) : Issued p w s u := by
  obtain ⟨hw, hc⟩ := portCommand_ok.mp hi
  have hrun : s.running ≠ true := by simp [State.running_of_accepting ha]
  have hf : s.engState ≠ .faulted := by rcases s.accepting_iff.mp ha with h | h <;> simp [h]
  cases i with
  | new pol =>
    obtain ⟨hr, -⟩ | ⟨hf', -⟩ | ⟨-, ⟨-, rfl⟩ | ⟨q, hq, ⟨-, rfl⟩ | ⟨hb, rfl⟩⟩⟩ := newOn_next h
    · exact absurd hr hrun
    · exact absurd hf' hf
    · exact .rejected _ ha (by decide)
    · exact .rejected _ ha (by decide)
    · exact .bound pol q ha hw hq hb
  | write r g b =>
    obtain ⟨hr, -⟩ | ⟨hf', -⟩ | ⟨-, ⟨-, rfl⟩ | ⟨q, hb, -, rfl⟩⟩ := writeOn_next h
    · exact absurd hr hrun
    · exact absurd hf' hf
    · exact .rejected _ ha (by decide)
    · exact .writing _ ha hb
  | endFrame =>
    obtain ⟨hr, -⟩ | ⟨hf', -⟩ | ⟨-, ⟨-, rfl⟩ | ⟨hb, rfl⟩⟩ := endFrameOn_next h
    · exact absurd hr hrun
    · exact absurd hf' hf
    · exact .rejected _ ha (by decide)
    · exact .latching ha hb
  | driveHigh | driveLow | delayLong | delayShort | delayTrim | holdLatch => simp [Instr.isCommand] at hc

theorem issued_of_issueStep {p : Params} {s u : State} (hr : s.running = false)
    (h : issueStep (execOn p) s = .next u) : ∃ w, s.nextWord = some w ∧ Issued p w s u := by
  obtain ⟨w, hw, ⟨hf, rfl⟩ | ⟨hf, hu⟩⟩ := issueStep_next h
  · exact ⟨w, hw, .ignored hf⟩
  · have ha := State.accepting_of_resting hr hf
    obtain ⟨c, hc, rfl⟩ | ⟨i, hi, hx⟩ := hu
    · exact ⟨w, hw, .rejected c ha (portCommand_error hc)⟩
    · exact ⟨w, hw, issued_of_execOn ha hi hx⟩

/-! ### A micro-op with the sequencer's advance -/

/-- `u` is `s` after a micro-op `i` as far as all micro-ops agree: what none changes, and which way the rest can go
(R90, R103, R104, R118, R120, R128). -/
structure State.Performed (i : Instr) (s u : State) : Prop where
  hostIdx : u.hostIdx = s.hostIdx
  stream : u.stream = s.stream
  schedule : u.schedule = s.schedule
  bound : u.bound = s.bound
  policy : u.policy = s.policy
  seq : u.seq = s.seq
  faultCode : u.faultCode = s.faultCode
  tv : u.tv = s.tv
  engState : u.engState = s.engState ∨ u.engState = .idle
  microTrace : u.microTrace = s.microTrace ++ [encode i]
  time_le : s.t ≤ u.t
  draws_le : s.draws ≤ u.draws
  pin : (u.pin = s.pin ∧ u.trace = s.trace) ∨
    (i = .driveHigh ∧ u.pin = .high ∧ u.trace = s.trace ++ [⟨s.t, .high⟩]) ∨
    (i = .driveLow ∧ u.pin = .low ∧ u.trace = s.trace ++ [⟨s.t, .low⟩])

theorem State.performed_afterMicroOp (p : Params) (i : Instr) (s : State) :
    s.Performed i ((afterOp p i s).afterMicroOp i) := by
  obtain ⟨pin, trace, t, draws, hop, ht, hd, hpin⟩ := afterOp_eq p i s
  obtain ⟨e, n, ph, hadv, he⟩ := State.advancePosition_eq ((afterOp p i s).recordMicroOp (encode i))
  rw [State.afterMicroOp, hadv, hop]
  rw [hop] at he
  exact ⟨rfl, rfl, rfl, rfl, rfl, rfl, rfl, rfl, he.imp_right And.right, rfl, ht, hd, hpin⟩

/-! ### A step -/

/-- What a step can leave of `s`: `l` is what is left of the schedule (R20, R115, R128, R162, R171). -/
inductive Stepped (p : Params) (s : State) : State → Prop
  | reset (u : State) (h : s.ResetTo u) : Stepped p s u
  | stall (l : List Move) (d : Ns) (hb : s.betweenMicroOps = true) (hp : p.preemption = true) (hd : 0 < d)
      (hl : .stall d ∈ s.schedule) : Stepped p s (State.stallFor d { s with schedule := l })
  | microOp (l : List Move) (i : Instr) (u : State) (hr : s.running = true) (hi : s.selectedMicroOp = some i)
      (hu : u = (afterOp p i { s with schedule := l }).afterMicroOp i)
      (hm : State.Performed i { s with schedule := l } u) : Stepped p s u
  | gap (l : List Move) (g : Ns) (hr : s.running = false) (hg : 0 ≤ g) :
      Stepped p s (State.advance g { s with schedule := l })
  | issue (l : List Move) (w : Word) (u : State) (hr : s.running = false) (hw : s.nextWord = some w)
      (hu : Issued p w { s with schedule := l } u) : Stepped p s u

theorem stepped_of_stepOn {p : Params} {s u : State} (h : stepOn p s = .next u) : Stepped p s u := by
  obtain ⟨l, ⟨hl, rfl⟩ | ⟨hb, d, hd, hp, hl, rfl⟩ | ⟨hr, -, h⟩ | ⟨hr, g, hg, -, rfl⟩ | ⟨hr, -, h⟩⟩ := stepOn_next h
  · exact .reset _ (State.resetTo_resetEvent hl)
  · exact .stall l d hb hp hd (hl.subset (by simp))
  · obtain ⟨i, hi, rfl⟩ := engineStep_next h
    exact .microOp l i _ hr hi rfl (State.performed_afterMicroOp ..)
  · exact .gap l g hr hg
  · obtain ⟨w, hw, hu⟩ := issued_of_issueStep (s := { s with schedule := l }) hr h
    exact .issue l w u hr hw hu

theorem stepped_of_step {s u : State} (h : step s = .next u) : Stepped Config.params s u :=
  stepped_of_stepOn (step_eq_stepOn s ▸ h)

end Sys2Proof.Machine
end

section
/-!
PROOFS. The statements about every step that need no invariant (10_state.md R22, R24, R26, R30, R31, R34, R35; 43 R115):
each is a look at what `Stepped` can leave.
-/
namespace Sys2Proof.Machine

/-- A step in front of which HOST's move waits is ENGINE's, and takes no move (R115). -/
theorem schedule_of_undisturbed {s u : State} (hr : s.running = true) (hu : s.undisturbed = true)
    (h : step s = .next u) : u.schedule = s.schedule := by
  rw [step_eq_stepOn, stepOn_of_undisturbed hr hu] at h
  obtain ⟨i, -, rfl⟩ := engineStep_next h
  exact (State.performed_afterMicroOp _ i s).schedule

/-- Settles O34: of the outcomes of a step only the reset, the stall and the micro-op have a command running. -/
theorem hostIsHeld : Obligations.HostIsHeld := by
  refine ⟨fun s u hr h => ?_, fun s u g rest hr hg hs h => ?_, fun s u rest hr hs h => ?_⟩
  · cases stepped_of_step h with
    | reset _ h => exact .inr h
    | stall l d => exact .inl (by simp)
    | microOp l i u hr hi hu hm =>
      exact .inl ⟨hm.hostIdx, hm.stream, hm.bound, hm.policy, hm.seq, hm.faultCode, hm.engState⟩
    | gap l g hr' => simp [hr] at hr'
    | issue l w u hr' => simp [hr] at hr'
  · rw [schedule_of_undisturbed hr (by simpa [State.undisturbed, hs] using hg) h, hs]
  · rw [schedule_of_undisturbed hr (by simp [State.undisturbed, hs]) h, hs]

/-- A word taken by HOST's issue leaves TV, and FAULT_CODE where one is set (R30, R31, R154). -/
theorem Issued.flags {p : Params} {w : Word} {s u : State} (h : Issued p w s u) :
    u.tv = s.tv ∧ (s.faultCode ≠ .noFault → u.faultCode = s.faultCode) := by
  cases h with
  | rejected c => exact ⟨by simp, fun hf => by simp [hf]⟩
  | ignored | bound | writing | latching => exact ⟨rfl, fun _ => rfl⟩

/-- Settles O41: of the outcomes of a step only a stall in EMITTING sets TV, and none changes a code that is set. -/
theorem flagsAreSticky : Obligations.FlagsAreSticky := by
  intro p s u h
  cases stepped_of_stepOn h with
  | reset _ h => exact .inr h
  | stall l d hb hp hd hl =>
    refine .inl ⟨fun htv => by simp [htv], fun _ => by simp, fun htv => ?_⟩
    by_cases he : s.engState = .emitting
    · exact .inr ⟨he, hb, hp, d, hd, hl, by simp⟩
    · exact .inl (by simpa [he] using htv)
  | microOp l i u hr hi hu hm =>
    exact .inl ⟨fun htv => hm.tv.trans htv, fun _ => hm.faultCode, fun htv => .inl (hm.tv.symm.trans htv)⟩
  | gap l g => exact .inl ⟨id, fun _ => rfl, .inl⟩
  | issue l w u hr hw hu =>
    obtain ⟨htv, hf⟩ := hu.flags
    exact .inl ⟨htv.trans, hf, fun h => .inl (htv.symm.trans h)⟩

/-- Settles O49: of the outcomes of a step only a reset and a `NEW` that binds write the binding, and such a `NEW` finds
BOUND clear. -/
theorem bindingIsForLife : Obligations.BindingIsForLife := by
  refine ⟨fun s u hb h => ?_, fun s u hb h hbound => ?_, rfl⟩
  · cases stepped_of_step h with
    | reset _ h => exact .inr h
    | stall l d => exact .inl (by simp [hb])
    | microOp l i u hr hi hu hm =>
      exact .inl ⟨hm.bound.trans hb, hm.policy⟩
    | gap l g => exact .inl ⟨hb, rfl⟩
    | issue l w u hr hw hi =>
      cases hi with
      | bound pol q ha hw hq hb' => simp [hb] at hb'
      | ignored | rejected | writing | latching => exact .inl (by simp [hb])
  · cases stepped_of_step h with
    | reset _ h =>
      rw [h.2] at hbound
      simp [State.reset] at hbound
    | stall l d => simp [hb] at hbound
    | microOp l i u hr hi hu hm =>
      cases (hm.bound.trans hb).symm.trans hbound
    | gap l g => simp [hb] at hbound
    | issue l w u hr hw hi =>
      cases hi with
      | bound pol q ha hd hq => exact ⟨w, pol, q, hw, hd, hq, rfl, rfl⟩
      | ignored | rejected | writing | latching => simp [hb] at hbound

/-- HOST's issue takes no time and writes neither TRACE nor the micro-op trace nor the draw counter. -/
theorem Issued.recordings {p : Params} {w : Word} {s u : State} (h : Issued p w s u) :
    u.t = s.t ∧ u.pin = s.pin ∧ u.trace = s.trace ∧ u.microTrace = s.microTrace ∧ u.draws = s.draws := by
  cases h <;> simp

/-- Settles O50: a stall and a gap add to time, a micro-op to time, TRACE, micro-op trace and draw counter. -/
theorem timeAndTraceOnlyGrow : Obligations.TimeAndTraceOnlyGrow := by
  intro s u h
  cases stepped_of_step h with
  | reset _ h => exact .inr h
  | stall l d hb hp hd => exact .inl (by simp [hd.le])
  | microOp l i u hr hi hu hm =>
    refine .inl ⟨hm.time_le, ?_, ⟨_, hm.microTrace.symm⟩, hm.draws_le⟩
    obtain ⟨-, ht⟩ | ⟨-, -, ht⟩ | ⟨-, -, ht⟩ := hm.pin
    · simp [ht]
    · exact ⟨_, ht.symm⟩
    · exact ⟨_, ht.symm⟩
  | gap l g hr hg => exact .inl (by simp [hg])
  | issue l w u hr hw hi =>
    obtain ⟨ht, -, htr, hmt, hd⟩ := hi.recordings
    exact .inl ⟨ht.ge, by simp [htr], by simp [hmt], hd.ge⟩

/-- Settles O51: of the outcomes of a step only a reset and a drive that is performed write the pin or TRACE. -/
theorem onlyDrivesMoveThePin : Obligations.OnlyDrivesMoveThePin := by
  intro s u h
  cases stepped_of_step h with
  | reset _ h => exact .inr (.inr (.inr h))
  | stall l d => exact .inl (by simp)
  | microOp l i u hr hi hu hm =>
    obtain h | ⟨rfl, hp, ht⟩ | ⟨rfl, hp, ht⟩ := hm.pin
    · exact .inl h
    · exact .inr (.inl ⟨hi, hp, ht⟩)
    · exact .inr (.inr (.inl ⟨hi, hp, ht⟩))
  | gap l g => exact .inl ⟨rfl, rfl⟩
  | issue l w u hr hw hi =>
    obtain ⟨-, hp, ht, -⟩ := hi.recordings
    exact .inl ⟨hp, ht⟩

/-- HOST's issue takes one word of an unchanging stream, whatever becomes of it (R22, R115, R131). -/
theorem Issued.takes_word {p : Params} {w : Word} {s u : State} (h : Issued p w s u) :
    u.stream = s.stream ∧ u.hostIdx = s.hostIdx + 1 := by
  cases h <;> simp

/-- Settles O52: of the outcomes of a step only HOST's issue, which no running command allows, and a reset move HOST_IDX. -/
theorem streamIsReadInOrder : Obligations.StreamIsReadInOrder := by
  intro s u h
  cases stepped_of_step h with
  | reset _ h => exact ⟨by rw [h.2], .inr (.inr h)⟩
  | stall l d => exact ⟨by simp, .inl (by simp)⟩
  | microOp l i u hr hi hu hm =>
    exact ⟨hm.stream, .inl hm.hostIdx⟩
  | gap l g => exact ⟨rfl, .inl rfl⟩
  | issue l w u hr hw hi =>
    obtain ⟨hs, hx⟩ := hi.takes_word
    exact ⟨hs, .inr (.inl ⟨hr, hx⟩)⟩

/-- Settles O42: a reset is due in every state, so settling keeps it in front, whether ENGINE runs a command or not. -/
theorem resetTakesEffectAnywhere : Obligations.ResetTakesEffectAnywhere := by
  intro s rest hs
  have hsettle : s.settle Config.params = s := State.settle_of_head (by simp [hs, moveIsPossible])
  have hrun : runningStep exec s = restingStep exec s := by simp only [runningStep, restingStep, hs]
  unfold step machineStep
  rw [hsettle, hrun, ite_self]
  simp only [restingStep, hs, State.resetEvent]

end Sys2Proof.Machine
end

section
/-!
PROOFS. The STATUS view (10_state.md R36), field by field, and the reset values (R38).
-/
namespace Sys2Proof.Machine

/-- Settles O43: each field of `State.reset` is written out there, and STATUS is computed. -/
theorem resetValues : Obligations.ResetValues :=
  ⟨rfl, rfl, rfl, rfl, rfl, rfl, rfl, rfl, rfl, by decide⟩

/-- The fields of a packing of R36's widths are read back where it puts them. -/
theorem extract_statusPacking {phase eng : BitVec 3} {bitIdx : BitVec 5} {fault : BitVec 8} {zeros : BitVec 7}
    {tv bound : BitVec 1} {pin policy : BitVec 2} (x : BitVec (3 + 5 + 8 + 7 + 1 + 2 + 2 + 1 + 3))
    (hx : x = phase ++ bitIdx ++ fault ++ zeros ++ tv ++ pin ++ policy ++ bound ++ eng) :
    x.extractLsb' 0 3 = eng ∧ x.extractLsb' 3 1 = bound ∧ x.extractLsb' 4 2 = policy ∧ x.extractLsb' 6 2 = pin ∧
      x.extractLsb' 8 1 = tv ∧ x.extractLsb' 9 7 = zeros ∧ x.extractLsb' 16 8 = fault ∧
      x.extractLsb' 24 5 = bitIdx ∧ x.extractLsb' 29 3 = phase := by
  subst hx
  simp (disch := decide) only [BitVec.extractLsb'_append_eq_of_le, BitVec.extractLsb'_append_eq_right,
    BitVec.extractLsb'_eq_self, Nat.reduceSub, and_self]

theorem State.policyField_of_unbound {s : State} (h : s.bound = false) : s.policyField = 0 := by
  simp [State.policyField, h]

theorem State.policyField_of_bound {s : State} {q : Policy} (h : s.bound = true) (hq : s.policy = some q) :
    s.policyField = policyCode q := by
  simp [State.policyField, h, hq]

/-- Settles O44: each field of the packing is read back, and the codes are those the statement writes out. -/
theorem statusFields : Obligations.StatusFields := by
  intro s
  obtain ⟨he, hb, hq, hp, ht, hz, hf, hn, hph⟩ := extract_statusPacking s.status rfl
  refine ⟨he, hb, fun h => hq.trans (State.policyField_of_unbound h),
    fun q h hs => hq.trans (State.policyField_of_bound h hs), hp, ht, hz, hf, hn, hph.trans ?_, by decide⟩
  simp only [State.phaseField, State.running_iff]
  rfl

end Sys2Proof.Machine
end

section
/-!
PROOFS. The invariant of Safety.lean: it holds at reset and each operation a step is made of keeps it (10_state.md R20 to
R38). The position of the sequencer is the one part that needs a case for each micro-op.
-/
namespace Sys2Proof.Machine

/-! ### Reset -/

/-- The invariant says nothing of the schedule or the draw counter, and of the stream only that HOST_IDX is in it. -/
theorem inv_reset (p : Params) (ws : List Word) (moves : List Move) (n : Nat) :
    State.Inv p { State.reset with stream := ws, schedule := moves, draws := n } where
  bound_iff := rfl
  policy_implemented _ h := by cases h
  bound_of_state := by simp [State.reset]
  faulted_iff := by simp [State.reset]
  emitting_position h := by cases h
  latching_position h := by cases h
  pin_last := rfl
  pin_high := by simp [State.reset, State.highPhase]
  pin_low := by simp [State.reset]
  unbound_trace _ := ⟨rfl, rfl⟩
  time_nonneg := le_rfl
  trace_sorted := .nil
  trace_past _ h := by cases h
  trace_before _ _ h := by cases h
  trace_levels := rfl
  hostIdx_le := Nat.zero_le _

/-- Settles O45: the reset state is the one with the empty stream and nothing scheduled. -/
theorem invariantAtReset : Obligations.InvariantAtReset :=
  ⟨fun p => inv_reset p [] [] 0, fun p ws moves => inv_reset p ws moves 0⟩

section
variable {p : Params} {s : State}

theorem State.Inv.with_schedule (h : s.Inv p) (l : List Move) : State.Inv p { s with schedule := l } :=
  { h with }

/-! ### Time and TV -/

theorem State.Inv.advance (h : s.Inv p) {d : Ns} (hd : 0 ≤ d) : (s.advance d).Inv p :=
  have hle : s.t ≤ s.t + d := le_add_of_nonneg_right hd
  { h with
    time_nonneg := h.time_nonneg.trans hle
    trace_past := fun e he => (h.trace_past e he).imp_right hle.trans'
    trace_before := fun hj e he => (h.trace_before hj e he).trans_le hle }

theorem State.Inv.setTv (h : s.Inv p) (hb : s.bound = true) : s.setTv.Inv p :=
  { h with unbound_trace := fun hu => by simp [hb] at hu }

theorem State.Inv.bound_of_running (h : s.Inv p) (hr : s.running = true) : s.bound = true := by
  obtain ⟨-, -, hem, hla⟩ := h.bound_of_state
  exact (s.running_iff.mp hr).elim hem hla

theorem State.Inv.stallFor (h : s.Inv p) (hr : s.running = true) {d : Ns} (hd : 0 ≤ d) : (s.stallFor d).Inv p := by
  unfold State.stallFor
  cases s.engState with
  | emitting => exact (h.advance hd).setTv (h.bound_of_running hr)
  | unbound | idle | latching | faulted => exact h.advance hd

/-! ### The position -/

/-- The invariant's part that speaks of the position: its range, and the pin's level there (R28, R29, R106, R107, R121). -/
structure State.Placed (s : State) : Prop where
  emitting_position : s.engState = .emitting → s.bitIdx.toNat < 24 ∧ s.phase.toNat < 5
  latching_position : s.engState = .latching → s.phase.toNat < 2
  pin_high : s.pin = .high ↔ s.highPhase = true
  pin_low : (s.engState = .emitting → s.phase.toNat = 3 ∨ s.phase.toNat = 4 → s.pin = .low) ∧
    (s.engState = .latching → s.phase.toNat = 1 → s.pin = .low)

/-- Where no command runs, and at the start of a pulse or of a latch, only a high pin would be out of place. -/
theorem State.placed_of_not_high (hpin : s.pin ≠ .high) (hp : s.running = true → s.phase = 0)
    (hn : s.engState = .emitting → s.bitIdx.toNat < 24) : s.Placed := by
  have hem (he : s.engState = .emitting) : s.phase = 0 := hp (s.running_iff.mpr (.inl he))
  have hla (he : s.engState = .latching) : s.phase = 0 := hp (s.running_iff.mpr (.inr he))
  refine ⟨fun he => ⟨hn he, by simp [hem he]⟩, fun he => by simp [hla he], ?_,
    fun he => by simp [hem he], fun he => by simp [hla he]⟩
  have hlow : s.highPhase = false := by
    by_cases he : s.engState = .emitting
    · simp [State.highPhase, hem he]
    · simp [State.highPhase, he]
  simp [hpin, hlow]

/-- A command may be started, moved on or completed where every event is in the past. -/
theorem State.Inv.moved (h : s.Inv p) (hf : s.faultCode = .noFault) (hb : s.bound = true)
    (hpast : ∀ x ∈ s.trace, x.time < s.t) {e : EngState} {q : ColourWord} {n : BitVec 5} {k : BitVec 3}
    (he : e = .idle ∨ e = .emitting ∨ e = .latching)
    (hu : State.Placed { s with engState := e, seq := q, bitIdx := n, phase := k }) :
    State.Inv p { s with engState := e, seq := q, bitIdx := n, phase := k } :=
  { hu, h with
    bound_of_state := by rcases he with rfl | rfl | rfl <;> simp [hb]
    faulted_iff := by rcases he with rfl | rfl | rfl <;> simp [hf]
    trace_before := fun _ => hpast }

/-! ### HOST's issue -/

theorem State.Inv.takeWord (h : s.Inv p) {w : Word} (hw : s.nextWord = some w) : s.takeWord.Inv p :=
  { h with hostIdx_le := (List.getElem?_eq_some_iff.mp hw).1 }

/-- Between commands no fault is set, the pin is not high and every event is in the past (R119, R121, R138, R154). -/
theorem State.Inv.of_accepting (h : s.Inv p) (ha : s.accepting = true) :
    s.faultCode = .noFault ∧ s.pin ≠ .high ∧ ∀ x ∈ s.trace, x.time < s.t := by
  rcases s.accepting_iff.mp ha with he | he <;>
    exact ⟨by simpa [he] using h.faulted_iff, by simp [h.pin_high, State.highPhase, he],
      h.trace_before (by simp [State.justDriven, he])⟩

theorem State.Inv.raiseFault (h : s.Inv p) (ha : s.accepting = true) {c : FaultCode} (hc : c ≠ .noFault) :
    (s.raiseFault c).Inv p := by
  obtain ⟨hf, hpin, hpast⟩ := h.of_accepting ha
  rw [State.raiseFault, State.recordFault_none s c hf]
  have hu : State.Placed { s with faultCode := c, engState := .faulted } :=
    State.placed_of_not_high hpin (by simp [State.running]) (by simp)
  exact { hu, h with
    bound_of_state := by simp
    faulted_iff := by simpa using hc
    trace_before := fun _ => hpast }

/-- The code of a policy that `NEW` binds is the code it was named by, so it is implemented (R60, R86). -/
theorem policyOf_policyCode {hasExtra : Bool} {pol : BitVec 2} {q : Policy} (h : policyOf hasExtra pol = some q) :
    policyOf hasExtra (policyCode q) = some q := by
  revert hasExtra pol q
  decide

theorem State.Inv.bindPolicy (h : s.Inv p) (ha : s.accepting = true) {q : Policy}
    (hq : policyOf p.hasExtraPolicies (policyCode q) = some q) : (s.bindPolicy q).Inv p := by
  obtain ⟨hf, hpin, hpast⟩ := h.of_accepting ha
  have hu : (s.bindPolicy q).Placed := State.placed_of_not_high hpin (by simp [State.running]) (by simp)
  exact { hu, h with
    bound_iff := rfl
    policy_implemented := fun r hr => by cases hr; exact hq
    bound_of_state := by simp
    faulted_iff := by simpa using hf
    unbound_trace := by simp
    trace_before := fun _ => hpast }

theorem State.Inv.issued {w : Word} {u : State} (h : s.Inv p) (hw : s.nextWord = some w) (hu : Issued p w s u) :
    u.Inv p := by
  have ht := h.takeWord hw
  cases hu with
  | ignored => exact ht
  | rejected c ha hc => exact ht.raiseFault ha hc
  | bound pol q ha _ hq => exact ht.bindPolicy ha (policyOf_policyCode hq)
  | writing bits ha hb =>
    obtain ⟨hf, hpin, hpast⟩ := ht.of_accepting ha
    exact ht.moved hf hb hpast (.inr (.inl rfl)) (State.placed_of_not_high hpin (by simp) (by simp))
  | latching ha hb =>
    obtain ⟨hf, hpin, hpast⟩ := ht.of_accepting ha
    exact ht.moved hf hb hpast (.inr (.inr rfl)) (State.placed_of_not_high hpin (by simp) (by simp))

end
end Sys2Proof.Machine
end

section
/-!
PROOFS. ENGINE's micro-op keeps the invariant (42_pulse_emitter.md R106, R107; 43_writer_engine.md R118, R120, R128). A
drive moves the pin and PHASE at once. A delay first lets time pass, which keeps the invariant where the position is, and
leaves every event in the past, so that the position may then move on. Last come all steps, and ENG_STATE's transitions
(10_state.md R25).
-/
namespace Sys2Proof.Machine

section
variable {p : Params} {s : State}

/-! ### What the position selects, and where it goes from the latch -/

theorem State.selectedMicroOp_emitting {i : Instr} (he : s.engState = .emitting) (hi : s.selectedMicroOp = some i) :
    [.driveHigh, highDelay s.bit, .driveLow, lowDelay s.bit, .delayTrim][s.phase.toNat]? = some i := by
  simp only [State.selectedMicroOp, he] at hi
  split at hi
  · rwa [← pulseFor_eq]
  · cases hi

theorem State.selectedMicroOp_latching {i : Instr} (he : s.engState = .latching) (hi : s.selectedMicroOp = some i) :
    latchProgram[s.phase.toNat]? = some i := by
  simpa only [State.selectedMicroOp, he] using hi

/-- After the drive the latch is held (R120). -/
theorem State.afterMicroOp_latch_drive {i : Instr} (he : s.engState = .latching) (hp : s.phase = 0) :
    s.afterMicroOp i = { s.recordMicroOp (encode i) with phase := 1 } := by
  simp [State.afterMicroOp, State.advancePosition, State.advanceLatching, he, hp]

/-- After the hold the `END_FRAME` is over (R120, R123). -/
theorem State.afterMicroOp_latch_hold {i : Instr} (he : s.engState = .latching) (hp : s.phase = 1) :
    s.afterMicroOp i = { s.recordMicroOp (encode i) with phase := 0, engState := .idle } := by
  simp [State.afterMicroOp, State.advancePosition, State.advanceLatching, he, hp]

/-! ### A drive -/

/-- A drive, with the PHASE it leads to, where the last drive is in the past. -/
theorem State.Inv.driven (h : s.Inv p) (hr : s.running = true) (hj : s.justDriven = false) {l : Level} {k : BitVec 3}
    {w : Word} (hw : drivenLevel w = some l) (hu : State.Placed { drive p l s with phase := k })
    (hju : State.justDriven { drive p l s with phase := k } = true) :
    State.Inv p { (drive p l s).recordMicroOp w with phase := k } :=
  have hpast := h.trace_before hj
  have hle : s.t ≤ s.t + p.dDrv := le_add_of_nonneg_right p.dDrv_nonneg
  { hu, h with
    pin_last := by simp [traceLevel]
    unbound_trace := by simp [h.bound_of_running hr]
    time_nonneg := h.time_nonneg.trans hle
    trace_sorted := by simpa [List.pairwise_append] using ⟨h.trace_sorted, hpast⟩
    trace_past := by
      simp only [State.recordMicroOp_trace, drive_trace, List.forall_mem_append, List.forall_mem_singleton]
      exact ⟨fun e he => (h.trace_past e he).imp_right hle.trans', h.time_nonneg, hle⟩
    trace_before := fun hj' => by cases hj'.symm.trans hju
    trace_levels := by simp [h.trace_levels, hw] }

/-! ### A delay -/

theorem drivenLevel_highDelay (b : Bool) : drivenLevel (encode (highDelay b)) = none := by
  cases b <;> decide

theorem drivenLevel_lowDelay (b : Bool) : drivenLevel (encode (lowDelay b)) = none := by
  cases b <;> decide

theorem highTime_pos (p : Params) (b : Bool) (n : Nat) : 0 < highTime p b n := by
  cases b
  · exact p.short.draw_pos n
  · exact p.long.draw_pos n

theorem lowTime_pos (p : Params) (b : Bool) (n : Nat) : 0 < lowTime p b n := by
  cases b
  · exact p.long.draw_pos n
  · exact p.short.draw_pos n

theorem dLatch_pos (p : Params) : 0 < p.dLatch :=
  lt_of_lt_of_le (by norm_num [Config.tResetMin]) p.dLatch_ge

/-- A delay, with the position it leads to: time has passed since the last drive, so the command may move on. -/
theorem State.Inv.delayed (h : s.Inv p) (hr : s.running = true) {d : Ns} (hd : 0 < d) {w : Word}
    (hw : drivenLevel w = none) {m : Nat} {e : EngState} {n : BitVec 5} {k : BitVec 3}
    (he : e = .idle ∨ e = .emitting ∨ e = .latching)
    (hu : State.Placed { s with
      engState := e, bitIdx := n, phase := k, t := s.t + d, draws := m, microTrace := s.microTrace ++ [w] }) :
    State.Inv p { s with
      engState := e, bitIdx := n, phase := k, t := s.t + d, draws := m, microTrace := s.microTrace ++ [w] } := by
  have hv : State.Inv p { s with t := s.t + d, draws := m, microTrace := s.microTrace ++ [w] } :=
    { h.advance hd.le with trace_levels := by simp [h.trace_levels, hw] }
  have hf : s.faultCode = .noFault := by
    by_contra hf
    simp [State.running, h.faulted_iff.mpr hf] at hr
  have hpast (x : PinEvent) (hx : x ∈ s.trace) : x.time < s.t + d :=
    lt_of_le_of_lt (h.trace_past x hx).2 (lt_add_of_pos_right _ hd)
  exact hv.moved hf (h.bound_of_running hr) hpast he hu

/-! ### A micro-op -/

/-- The five micro-ops of a pulse, by PHASE (R106, R107, R118). -/
theorem State.selectedMicroOp_emitting_cases {i : Instr} (he : s.engState = .emitting) (hp : s.phase.toNat < 5)
    (hi : s.selectedMicroOp = some i) :
    (s.phase = 0 ∧ i = .driveHigh) ∨ (s.phase = 1 ∧ i = highDelay s.bit) ∨ (s.phase = 2 ∧ i = .driveLow) ∨
      (s.phase = 3 ∧ i = lowDelay s.bit) ∨ (s.phase = 4 ∧ i = .delayTrim) := by
  have hsel := State.selectedMicroOp_emitting he hi
  have hk : s.phase = 0 ∨ s.phase = 1 ∨ s.phase = 2 ∨ s.phase = 3 ∨ s.phase = 4 := by
    generalize s.phase = k at hp
    revert k
    decide
  rcases hk with hk | hk | hk | hk | hk <;> simp_all

/-- The two micro-ops of a latch, by PHASE (R120). -/
theorem State.selectedMicroOp_latching_cases {i : Instr} (he : s.engState = .latching) (hp : s.phase.toNat < 2)
    (hi : s.selectedMicroOp = some i) : (s.phase = 0 ∧ i = .driveLow) ∨ (s.phase = 1 ∧ i = .holdLatch) := by
  have hsel := State.selectedMicroOp_latching he hi
  have hk : s.phase = 0 ∨ s.phase = 1 := by
    generalize s.phase = k at hp
    revert k
    decide
  rcases hk with hk | hk <;> simp_all [latchProgram]

theorem State.Inv.afterMicroOp_emitting {i : Instr} (h : s.Inv p) (he : s.engState = .emitting)
    (hi : s.selectedMicroOp = some i) : ((afterOp p i s).afterMicroOp i).Inv p := by
  have hr : s.running = true := s.running_iff.mpr (.inl he)
  obtain ⟨hn, hp⟩ := h.emitting_position he
  have he' : (afterOp p i s).engState = .emitting := (afterOp_engState p i s).trans he
  have hin (hk : s.phase.toNat < 4) := State.afterMicroOp_inside (i := i) he' (by simpa using hk)
  have hlast (hk : s.phase = 4) := State.afterMicroOp_last (i := i) he' (by simpa using hk)
  rw [afterOp_phase] at hin
  obtain ⟨hk, rfl⟩ | ⟨hk, rfl⟩ | ⟨hk, rfl⟩ | ⟨hk, rfl⟩ | ⟨hk, rfl⟩ := State.selectedMicroOp_emitting_cases he hp hi
  · rw [hin (by simp [hk]), hk]
    exact h.driven hr (by simp [State.justDriven, he, hk]) (l := .high) (by decide)
      ⟨by simp [hn], by simp [he], by simp [State.highPhase, he, Level.toPin], by simp [he]⟩
      (by simp [State.justDriven, he])
  · have hhigh : s.pin = .high := h.pin_high.mpr (by simp [State.highPhase, he, hk])
    rw [hin (by simp [hk]), hk, afterOp_highDelay]
    exact h.delayed hr (highTime_pos ..) (drivenLevel_highDelay _) (.inr (.inl he))
      ⟨by simp [hn], by simp [he], by simp [hhigh, State.highPhase, he], by simp [he]⟩
  · rw [hin (by simp [hk]), hk]
    exact h.driven hr (by simp [State.justDriven, he, hk]) (l := .low) (by decide)
      ⟨by simp [hn], by simp [he], by simp [State.highPhase, Level.toPin], by simp [Level.toPin]⟩
      (by simp [State.justDriven, he])
  · have hlow : s.pin = .low := h.pin_low.1 he (by simp [hk])
    rw [hin (by simp [hk]), hk, afterOp_lowDelay]
    exact h.delayed hr (lowTime_pos ..) (drivenLevel_lowDelay _) (.inr (.inl he))
      ⟨by simp [hn], by simp [he], by simp [hlow, State.highPhase], by simp [hlow]⟩
  · have hlow : s.pin = .low := h.pin_low.1 he (by simp [hk])
    rw [hlast hk]
    refine h.delayed hr (p.trim.draw_pos _) (by decide) ?_ (State.placed_of_not_high (by simp [hlow]) (by simp) ?_)
    · split <;> simp
    · intro hemit
      have hne : s.bitIdx.toNat ≠ 23 := fun h23 => by cases (if_pos h23).symm.trans hemit
      have hnext : (s.bitIdx + 1).toNat < 24 := by bv_omega
      exact hnext

theorem State.Inv.afterMicroOp_latching {i : Instr} (h : s.Inv p) (he : s.engState = .latching)
    (hi : s.selectedMicroOp = some i) : ((afterOp p i s).afterMicroOp i).Inv p := by
  have hr : s.running = true := s.running_iff.mpr (.inr he)
  have he' : (afterOp p i s).engState = .latching := (afterOp_engState p i s).trans he
  obtain ⟨hk, rfl⟩ | ⟨hk, rfl⟩ := State.selectedMicroOp_latching_cases he (h.latching_position he) hi
  · rw [State.afterMicroOp_latch_drive he' hk]
    exact h.driven hr (by simp [State.justDriven, he, hk]) (l := .low) (by decide)
      ⟨by simp [he], by simp, by simp [State.highPhase, Level.toPin, he], by simp [Level.toPin]⟩
      (by simp [State.justDriven, he])
  · have hlow : s.pin = .low := h.pin_low.2 he (by simp [hk])
    rw [State.afterMicroOp_latch_hold he' hk]
    exact h.delayed hr (dLatch_pos p) (by decide) (.inl rfl)
      (State.placed_of_not_high (by simp [hlow]) (by simp) (by simp))

end

theorem State.Inv.stepped {p : Params} {s u : State} (h : s.Inv p) (hu : Stepped p s u) : u.Inv p := by
  cases hu with
  | reset u hu =>
    rw [hu.2]
    exact inv_reset p _ _ _
  | stall l d hb hp hd => exact (h.with_schedule l).stallFor (State.running_of_betweenMicroOps hb) hd.le
  | microOp l i u hr hi hu hm =>
    rw [hu]
    rcases s.running_iff.mp hr with he | he
    · exact (h.with_schedule l).afterMicroOp_emitting he hi
    · exact (h.with_schedule l).afterMicroOp_latching he hi
  | gap l g hr hg => exact (h.with_schedule l).advance hg
  | issue l w u hr hw hu => exact (h.with_schedule l).issued hw hu

/-- Settles O46: by the outcomes of a step, each of which keeps the invariant. -/
theorem stepKeepsInvariant : Obligations.StepKeepsInvariant :=
  ⟨fun _ _ _ h hs => h.stepped (stepped_of_stepOn hs), fun _ _ h hs => h.stepped (stepped_of_step hs)⟩

/-! ### ENG_STATE's transitions -/

/-- A state that accepts commands is UNBOUND where BOUND is clear and IDLE where it is set (R24, R25). -/
theorem State.Inv.engState_of_accepting {p : Params} {s : State} (h : s.Inv p) (ha : s.accepting = true) :
    s.engState = if s.bound then .idle else .unbound := by
  obtain ⟨hunbound, hidle, -, -⟩ := h.bound_of_state
  rcases s.accepting_iff.mp ha with he | he
  · simp [he, hunbound he]
  · simp [he, hidle he]

/-- Settles O47: with the invariant a state that accepts commands is UNBOUND where BOUND is clear and IDLE where it is set,
so each outcome of an issue is a transition that R25 lists. -/
theorem onlyLegalTransitions : Obligations.OnlyLegalTransitions := by
  intro s u h hs
  cases stepped_of_step hs with
  | reset _ h => exact .inr (.inr h)
  | stall l d => exact .inl (by simp)
  | microOp l i u hr hi hu hm =>
    obtain he | he := hm.engState
    · exact .inl he
    · rcases s.running_iff.mp hr with hs | hs <;> exact .inr (.inl (by rw [he, hs]; rfl))
  | gap l g => exact .inl rfl
  | issue l w u hr hw hi =>
    have he := h.engState_of_accepting
    cases hi with
    | ignored => exact .inl rfl
    | rejected c ha =>
      cases hb : s.bound <;> exact .inr (.inl (by rw [he ha, hb, State.raiseFault_engState]; rfl))
    | bound pol q ha _ _ hb => exact .inr (.inl (by rw [he ha, hb]; rfl))
    | writing bits ha hb => exact .inr (.inl (by rw [he ha, hb]; rfl))
    | latching ha hb => exact .inr (.inl (by rw [he ha, hb]; rfl))

end Sys2Proof.Machine
end

section
/-!
PROOFS. Encoding and decoding are inverse (30_encoding.md R56 to R64): a word is its opcode byte in front of its operand
bits, and each row of the opcode map reads back what `encode` put there.
-/
namespace Sys2Proof

/-! ### A word and its fields -/

section
variable (w : Word)

theorem opcOf_append_argOf : opcOf w ++ argOf w = w :=
  (BitVec.extractLsb'_append_extractLsb'_eq_extractLsb' rfl).trans BitVec.extractLsb'_eq_self

theorem newReservedOf_append_polOf : newReservedOf w ++ polOf w = argOf w :=
  BitVec.extractLsb'_append_extractLsb'_eq_extractLsb' rfl

theorem channels_append : redOf w ++ greenOf w ++ blueOf w = argOf w := by
  have hrg : redOf w ++ greenOf w = w.extractLsb' 8 16 := BitVec.extractLsb'_append_extractLsb'_eq_extractLsb' rfl
  rw [hrg]
  exact BitVec.extractLsb'_append_extractLsb'_eq_extractLsb' rfl

end

theorem eq_append_of_fields {w : Word} {opc : BitVec 8} {arg : BitVec 24} (ho : opcOf w = opc) (ha : argOf w = arg) :
    w = opc ++ arg := by
  rw [← ho, ← ha, opcOf_append_argOf]

/-! ### Decoding what is encoded -/

@[simp] theorem opcOf_append (opc : BitVec 8) (arg : BitVec 24) : opcOf (opc ++ arg) = opc :=
  BitVec.extractLsb'_append_eq_left

@[simp] theorem redOf_encode_write (r g b : Channel) : redOf (encode (.write r g b)) = r :=
  (BitVec.extractLsb'_append_eq_of_add_le (by decide)).trans <|
    (BitVec.extractLsb'_append_eq_of_le (by decide)).trans BitVec.extractLsb'_append_eq_left

@[simp] theorem greenOf_encode_write (r g b : Channel) : greenOf (encode (.write r g b)) = g :=
  (BitVec.extractLsb'_append_eq_of_add_le (by decide)).trans <|
    (BitVec.extractLsb'_append_eq_of_le (by decide)).trans BitVec.extractLsb'_append_eq_right

@[simp] theorem blueOf_encode_write (r g b : Channel) : blueOf (encode (.write r g b)) = b :=
  (BitVec.extractLsb'_append_eq_of_add_le (by decide)).trans BitVec.extractLsb'_append_eq_right

theorem decode_of_opc_write {w : Word} (ho : opcOf w = 0x02) :
    decode w = .ok (.write (redOf w) (greenOf w) (blueOf w)) := by
  simp [decode, ho]

theorem decode_encode (i : Instr) : decode (encode i) = .ok i := by
  cases i with
  | new pol => revert pol; decide
  | write r g b => simp [decode_of_opc_write (w := encode (.write r g b)) (opcOf_append ..)]
  | endFrame | driveHigh | driveLow | delayLong | delayShort | delayTrim | holdLatch => decide

/-- Settles O1: the port gives the well-formed commands among what the opcode map gives. -/
theorem decodeOfEncode : Obligations.DecodeOfEncode :=
  ⟨decode_encode, fun _ i hc hw => decodeCommand_ok.mpr ⟨portCommand_ok.mpr ⟨decode_encode i, hc⟩, hw⟩⟩

/-! ### Encoding what is decoded -/

theorem encode_of_bareRow {w : Word} {i j : Instr} {c : FaultCode} {opc : BitVec 8} (ho : opcOf w = opc)
    (hi : encode i = opc ++ 0#24) (h : bareRow w i c = .ok j) : encode j = w := by
  obtain ⟨ha, rfl⟩ := bareRow_ok.mp h
  exact hi.trans (eq_append_of_fields ho ha).symm

theorem encode_of_decode {w : Word} {i : Instr} (h : decode w = .ok i) : encode i = w := by
  unfold decode at h
  split_ifs at h with hnew hres hwrite hend hhigh hlow hlong hshort htrim hlatch
  · cases h
    exact (eq_append_of_fields hnew ((newReservedOf_append_polOf w).symm.trans (by rw [hres]; rfl))).symm
  · cases h
    exact (eq_append_of_fields hwrite (channels_append w).symm).symm
  · exact encode_of_bareRow hend rfl h
  · exact encode_of_bareRow hhigh rfl h
  · exact encode_of_bareRow hlow rfl h
  · exact encode_of_bareRow hlong rfl h
  · exact encode_of_bareRow hshort rfl h
  · exact encode_of_bareRow htrim rfl h
  · exact encode_of_bareRow hlatch rfl h

/-- Settles O2: `decode`'s branches, each of which names every field of the word. -/
theorem encodeOfDecode : Obligations.EncodeOfDecode := fun _ _ => encode_of_decode

/-- A word decodes to an instruction exactly when it is that instruction's word (R64). -/
theorem decode_eq_ok_iff {w : Word} {i : Instr} : decode w = .ok i ↔ encode i = w :=
  ⟨encode_of_decode, fun h => h ▸ decode_encode i⟩

/-- Settles O4: each word written out is the word of its instruction. -/
theorem sampleWordsDecode : Obligations.SampleWordsDecode := by
  refine ⟨?_, ?_, ?_, ?_, ?_, ?_, ?_, ?_, ?_, ?_, ?_⟩ <;> exact decode_eq_ok_iff.mpr (by decide)

end Sys2Proof
end

section
/-!
PROOFS. The rows of the opcode map (30_encoding.md R64): the words that match a row are the words of that row's
instructions.
-/
namespace Sys2Proof

theorem mem_opcodeRows {row : OpcodeRow} : row ∈ opcodeRows ↔ ∃ i, opcodeRowOf i = row := by
  refine ⟨fun h => ?_, ?_⟩
  · obtain ⟨i, -, hi⟩ := List.mem_map.mp h
    exact ⟨i, hi⟩
  · rintro ⟨i, rfl⟩
    cases i <;> simp [opcodeRows, opcodeRowOf]

theorem opcodeMap_statement (i : Instr) : Laws.OpcodeMap.Statement i := by
  cases i with
  | new pol => exact Laws.OpcodeMap.new pol
  | write r g b => exact Laws.OpcodeMap.write r g b
  | endFrame => exact Laws.OpcodeMap.endFrame
  | driveHigh => exact Laws.OpcodeMap.driveHigh
  | driveLow => exact Laws.OpcodeMap.driveLow
  | delayLong => exact Laws.OpcodeMap.delayLong
  | delayShort => exact Laws.OpcodeMap.delayShort
  | delayTrim => exact Laws.OpcodeMap.delayTrim
  | holdLatch => exact Laws.OpcodeMap.holdLatch

/-- A row's mask clears the operand and keeps the bits above it, so a match fixes those (R64). -/
theorem high_eq_of_mask {n m : Nat} {hi hi' : BitVec n} {lo : BitVec m}
    (h : (hi ++ lo) &&& (BitVec.allOnes n ++ 0#m) = hi' ++ 0#m) : hi = hi' := by
  rw [BitVec.and_append, BitVec.and_allOnes, BitVec.and_zero] at h
  exact (BitVec.append_left_inj _).mp h

theorem encode_new_eq (pol : BitVec 2) : encode (.new pol) = 0x00400000#30 ++ pol := by
  revert pol
  decide

theorem encode_polOf_of_mask {w : Word} (h : w &&& 0xFFFFFFFC#32 = 0x01000000#32) : encode (.new (polOf w)) = w := by
  have hw : w.extractLsb' 2 30 ++ polOf w = w :=
    (BitVec.extractLsb'_append_extractLsb'_eq_extractLsb' rfl).trans BitVec.extractLsb'_eq_self
  have hhi : w.extractLsb' 2 30 = 0x00400000#30 := by
    refine high_eq_of_mask (lo := polOf w) (m := 2) ?_
    rw [hw]
    exact h
  rw [hhi] at hw
  exact (encode_new_eq _).trans hw

theorem encode_channels_of_mask {w : Word} (h : w &&& 0xFF000000#32 = 0x02000000#32) :
    encode (.write (redOf w) (greenOf w) (blueOf w)) = w := by
  have ho : opcOf w = 0x02#8 := by
    refine high_eq_of_mask (lo := argOf w) (m := 24) ?_
    rw [opcOf_append_argOf]
    exact h
  exact (eq_append_of_fields ho (channels_append w).symm).symm

theorem exists_encode_of_full_mask {w : Word} {i : Instr} (hm : (opcodeRowOf i).mask = BitVec.allOnes 32)
    (hi : encode i = (opcodeRowOf i).matchBits) (h : w &&& (opcodeRowOf i).mask = (opcodeRowOf i).matchBits) :
    ∃ j, encode j = w ∧ opcodeRowOf j = opcodeRowOf i := by
  rw [hm, BitVec.and_allOnes] at h
  exact ⟨i, hi.trans h.symm, rfl⟩

theorem exists_encode_of_mask {w : Word} {i : Instr} (h : w &&& (opcodeRowOf i).mask = (opcodeRowOf i).matchBits) :
    ∃ j, encode j = w ∧ opcodeRowOf j = opcodeRowOf i := by
  cases i with
  | new pol => exact ⟨_, encode_polOf_of_mask h, rfl⟩
  | write r g b => exact ⟨_, encode_channels_of_mask h, rfl⟩
  | endFrame | driveHigh | driveLow | delayLong | delayShort | delayTrim | holdLatch =>
    exact exists_encode_of_full_mask rfl rfl h

theorem mask_of_decode {w : Word} {i : Instr} (h : decode w = .ok i) :
    w &&& (opcodeRowOf i).mask = (opcodeRowOf i).matchBits := by
  rw [← encode_of_decode h]
  exact beq_iff_eq.mp (opcodeMap_statement i).1

theorem exists_decode_of_mask {w : Word} {row : OpcodeRow} (hrow : row ∈ opcodeRows)
    (h : w &&& row.mask = row.matchBits) : ∃ i, decode w = .ok i ∧ opcodeRowOf i = row := by
  obtain ⟨i, rfl⟩ := mem_opcodeRows.mp hrow
  obtain ⟨j, hj, hr⟩ := exists_encode_of_mask h
  exact ⟨j, decode_eq_ok_iff.mpr hj, hr⟩

/-- A word has one reading, so it matches one row (R64). -/
theorem row_unique {w : Word} {row row' : OpcodeRow} (hrow : row ∈ opcodeRows) (hrow' : row' ∈ opcodeRows)
    (h : w &&& row.mask = row.matchBits) (h' : w &&& row'.mask = row'.matchBits) : row = row' := by
  obtain ⟨i, hi, rfl⟩ := exists_decode_of_mask hrow h
  obtain ⟨j, hj, rfl⟩ := exists_decode_of_mask hrow' h'
  rw [hi] at hj
  cases hj
  rfl

theorem isCommand_iff_opc (i : Instr) :
    i.isCommand = true ↔ opcOf (opcodeRowOf i).matchBits ∈ [0x01#8, 0x02#8, 0x03#8] := by
  cases i <;> simp [Instr.isCommand, opcodeRowOf, opcOf]

/-- Settles O3: the rows stand in the model as the statement lists them, and which words match one is the lemmas above. -/
theorem opcodeMapUnambiguous : Obligations.OpcodeMapUnambiguous :=
  ⟨⟨fun _ => rfl, fun _ _ _ => rfl, rfl, rfl, rfl, rfl, rfl, rfl, rfl⟩, fun _ => mem_opcodeRows, isCommand_iff_opc,
    fun _ _ => mask_of_decode, fun _ _ => exists_decode_of_mask, fun _ _ _ => row_unique, by decide, by decide⟩

end Sys2Proof
end

section
/-!
PROOFS. The command port (30_encoding.md R65 to R67, R71): what it answers for each opcode, and HOST's issue of a word it
rejects.
-/
namespace Sys2Proof

/-! ### The port's answer, opcode by opcode -/

section
variable {w : Word}

theorem portCommand_of_opc_new (ho : opcOf w = 0x01) :
    portCommand w = if newReservedOf w = 0 then .ok (.new (polOf w)) else .error .reservedNonzero := by
  rw [portCommand, decode, if_pos ho]
  split_ifs <;> rfl

theorem portCommand_of_opc_write (ho : opcOf w = 0x02) :
    portCommand w = .ok (.write (redOf w) (greenOf w) (blueOf w)) := by
  simp [portCommand, decode, ho, Instr.isCommand]

theorem portCommand_of_opc_endFrame (ho : opcOf w = 0x03) :
    portCommand w = if argOf w = 0 then .ok .endFrame else .error .reservedNonzero := by
  rw [portCommand, decode, if_neg (by simp [ho]), if_neg (by simp [ho]), if_pos ho, bareRow]
  split_ifs <;> rfl

/-- What is left of the opcode map below its three commands is micro-ops, and they are as illegal as no row (R65, R66). -/
theorem portCommand_of_opc_illegal (h1 : opcOf w ≠ 0x01) (h2 : opcOf w ≠ 0x02) (h3 : opcOf w ≠ 0x03) :
    portCommand w = .error .illegalOpcode := by
  simp only [portCommand, decode, bareRow, if_neg h1, if_neg h2, if_neg h3]
  split_ifs <;> rfl

/-- The port's check of a policy code, as R71 writes it. -/
theorem ite_operandImplemented_new (hasExtra : Bool) (pol : BitVec 2) :
    (if operandImplemented hasExtra (.new pol) then .ok (.new pol) else .error .badPolicy : Except FaultCode Instr) =
      if pol = 3 then .error .badPolicy
      else if (pol = 1 ∨ pol = 2) ∧ hasExtra = false then .error .badPolicy
      else .ok (.new pol) := by
  revert hasExtra pol
  decide

theorem decodeCommand_of_opc_new (hasExtra : Bool) (ho : opcOf w = 0x01) :
    decodeCommand hasExtra w =
      if newReservedOf w ≠ 0 then .error .reservedNonzero
      else if polOf w = 3 then .error .badPolicy
      else if (polOf w = 1 ∨ polOf w = 2) ∧ hasExtra = false then .error .badPolicy
      else .ok (.new (polOf w)) := by
  rw [decodeCommand, portCommand_of_opc_new ho]
  by_cases hr : newReservedOf w = 0
  · rw [if_pos hr, if_neg (not_not_intro hr)]
    exact ite_operandImplemented_new hasExtra (polOf w)
  · rw [if_neg hr, if_pos hr]

theorem decodeCommand_of_opc_write (hasExtra : Bool) (ho : opcOf w = 0x02) :
    decodeCommand hasExtra w = .ok (.write (redOf w) (greenOf w) (blueOf w)) := by
  simp [decodeCommand, portCommand_of_opc_write ho, operandImplemented]

theorem decodeCommand_of_opc_endFrame (hasExtra : Bool) (ho : opcOf w = 0x03) :
    decodeCommand hasExtra w = if argOf w ≠ 0 then .error .reservedNonzero else .ok .endFrame := by
  rw [decodeCommand, portCommand_of_opc_endFrame ho, ite_not]
  split_ifs <;> rfl

theorem decodeCommand_of_opc_illegal (hasExtra : Bool) (h1 : opcOf w ≠ 0x01) (h2 : opcOf w ≠ 0x02)
    (h3 : opcOf w ≠ 0x03) : decodeCommand hasExtra w = .error .illegalOpcode := by
  simp [decodeCommand, portCommand_of_opc_illegal h1 h2 h3]

end

theorem decodeCommand_eq (hasExtra : Bool) (w : Word) :
    decodeCommand hasExtra w =
      if opcOf w = 0x01 then
        if newReservedOf w ≠ 0 then .error .reservedNonzero
        else if polOf w = 3 then .error .badPolicy
        else if (polOf w = 1 ∨ polOf w = 2) ∧ hasExtra = false then .error .badPolicy
        else .ok (.new (polOf w))
      else if opcOf w = 0x02 then .ok (.write (redOf w) (greenOf w) (blueOf w))
      else if opcOf w = 0x03 then if argOf w ≠ 0 then .error .reservedNonzero else .ok .endFrame
      else .error .illegalOpcode := by
  split
  · next h1 => exact decodeCommand_of_opc_new hasExtra h1
  · next h1 =>
    split
    · next h2 => exact decodeCommand_of_opc_write hasExtra h2
    · next h2 =>
      split
      · next h3 => exact decodeCommand_of_opc_endFrame hasExtra h3
      · next h3 => exact decodeCommand_of_opc_illegal hasExtra h1 h2 h3

end Sys2Proof

namespace Sys2Proof.Machine

/-! ### HOST's issue -/

theorem exec_eq_execOn_params : exec = execOn Config.params := funext₂ exec_eq_execOn

/-- Settles O5: the decoder's three commands one by one, and HOST's issue by `issueWord_eq_decodeCommand`. -/
theorem commandPortDecoder : Obligations.CommandPortDecoder := by
  refine ⟨decodeCommand_eq, fun s w ha => ?_⟩
  rw [exec_eq_execOn_params]
  exact issueWord_eq_decodeCommand Config.params w s (s.accepting_iff.mp ha)

section
variable {s : State} {w : Word}

/-- A word the port rejects has no other effect than its fault (R153, R154). -/
theorem issueWord_of_error {run : Instr → State → Host.Outcome State Fault Refusal} {c : FaultCode}
    (ha : s.accepting = true) (hc : portCommand w = .error c) : issueWord run w s = .next (s.takeWord.raiseFault c) := by
  have hf : s.engState ≠ .faulted := by rcases s.accepting_iff.mp ha with h | h <;> simp [h]
  simp [issueWord, hf, hc]

theorem issueWord_illegal (ha : s.accepting = true) (h1 : opcOf w ≠ 0x01) (h2 : opcOf w ≠ 0x02) (h3 : opcOf w ≠ 0x03) :
    issueWord exec w s = .next (s.takeWord.raiseFault .illegalOpcode) :=
  issueWord_of_error ha (portCommand_of_opc_illegal h1 h2 h3)

end

/-- Settles O6: the port knows three opcodes, and the zero word has none of them. -/
theorem illegalOpcodeFaults : Obligations.IllegalOpcodeFaults :=
  ⟨fun _ _ => issueWord_illegal, rfl, fun _ ha => issueWord_illegal ha (by decide) (by decide) (by decide)⟩

theorem microOpOpc_ne_command :
    ∀ o ∈ [0x10#8, 0x11#8, 0x20#8, 0x21#8, 0x22#8, 0x23#8], o ≠ 0x01 ∧ o ≠ 0x02 ∧ o ≠ 0x03 := by
  decide

theorem opcOf_encode_microOp {i : Instr} (h : i.isCommand = false) :
    opcOf (encode i) ∈ [0x10#8, 0x11#8, 0x20#8, 0x21#8, 0x22#8, 0x23#8] := by
  cases i with
  | new | write | endFrame => simp [Instr.isCommand] at h
  | driveHigh | driveLow | delayLong | delayShort | delayTrim | holdLatch => decide

/-- Settles O7: a micro-op's opcode is none of the port's three. -/
theorem microOpsIllegalForHost : Obligations.MicroOpsIllegalForHost := by
  refine ⟨fun s w ha ho => ?_, fun _ => opcOf_encode_microOp⟩
  obtain ⟨h1, h2, h3⟩ := microOpOpc_ne_command _ ho
  exact issueWord_illegal ha h1 h2 h3

/-- Settles O8: the port's rows of `NEW` and `END_FRAME` with a reserved bit set. -/
theorem reservedBitsFault : Obligations.ReservedBitsFault :=
  ⟨fun _ _ ha ho hr => issueWord_of_error ha ((portCommand_of_opc_new ho).trans (if_neg hr)),
    fun _ _ ha ho hr => issueWord_of_error ha ((portCommand_of_opc_endFrame ho).trans (if_neg hr)), rfl⟩

end Sys2Proof.Machine
end

section
/-!
PROOFS. The micro-programs (42_pulse_emitter.md R106, R107; 43_writer_engine.md R120), one whole pulse, and ENGINE's step as
`exec` of the selected micro-op (R128).
-/
namespace Sys2Proof.Machine

/-- Settles O19: the two pulses and their words are written out, and the pulses exchange the two delays. -/
theorem microPrograms : Obligations.MicroPrograms :=
  ⟨rfl, rfl, rfl, by decide, by decide, by decide, by decide⟩

/-- Settles O20: the five steps of `runOn_pulse`. -/
theorem onePulseRun : Obligations.OnePulseRun :=
  fun _ _ he hn hp hu => runOn_pulse ⟨he, hn, hu⟩ hp

@[simp] theorem afterOp_schedule (p : Params) (i : Instr) (s : State) : (afterOp p i s).schedule = s.schedule := by
  cases i <;> rfl

/-- A requested micro-op is possible while ENGINE runs, so the step is ENGINE's and takes the request alone (R128). -/
theorem stepOn_of_microOp {p : Params} {s : State} {rest : List Move} (hr : s.running = true)
    (hs : s.schedule = .microOp :: rest) : stepOn p s = engineStep (execOn p) { s with schedule := rest } := by
  have hset : s.settle p = s := State.settle_of_head (by simp [hs, moveIsPossible, hr])
  unfold stepOn machineStep
  rw [if_pos hr, hset]
  simp [runningStep, hs]

theorem exec_of_selected {s : State} {i : Instr} (hi : s.selectedMicroOp = some i) :
    exec i s = .next (afterOp Config.params i s) := by
  rw [exec_eq_execOn, execOn_microOp _ _ _ (selectedMicroOp_isCommand hi)]

/-- Settles O32: a requested micro-op is performed from the state with the request taken, the default one from the state as
it is. -/
theorem stepRunsMicroOp : Obligations.StepRunsMicroOp := by
  refine ⟨fun s i hr hu hi => ?_, fun s i rest hr hs hi => ?_⟩
  · refine ⟨_, exec_of_selected hi, ?_⟩
    rw [step_eq_stepOn, stepOn_of_selected hr hu hi]
    rfl
  · have hi' : State.selectedMicroOp { s with schedule := rest } = some i := hi
    refine ⟨_, exec_of_selected hi', afterOp_schedule .., ?_⟩
    rw [step_eq_stepOn, stepOn_of_microOp hr hs, engineStep_of_selected hi']
    rfl

end Sys2Proof.Machine
end

section
/-!
PROOFS. The assembler's words (30_encoding.md R70, R72 to R74).
-/
namespace Sys2Proof.Machine

/-! ### The commands -/

theorem asmNew_eq (q : Policy) : asmNew q = 0x01000000#32 ||| (policyCode q).setWidth 32 := by
  cases q <;> decide

/-- The fields of a `WRITE`'s word as R70 puts them together. -/
theorem encode_write_eq_or (r g b : Channel) :
    encode (.write r g b) =
      0x02000000#32 ||| (r.setWidth 32 <<< 16) ||| (g.setWidth 32 <<< 8) ||| b.setWidth 32 := by
  have hw : encode (.write r g b) = (0x02#8).setWidth 32 <<< 24 ||| (r ++ g ++ b).setWidth 32 :=
    (BitVec.setWidth_eq _).symm.trans BitVec.setWidth_append_eq_shiftLeft_setWidth_or
  rw [hw, BitVec.setWidth_append_append_eq_shiftLeft_setWidth_or, ← BitVec.or_assoc, ← BitVec.or_assoc]
  rfl

theorem setWidth_ofNat_channel {n : Nat} (h : n < 256) : (BitVec.ofNat 8 n).setWidth 32 = BitVec.ofNat 32 n :=
  BitVec.setWidth_ofNat_of_le_of_lt (by decide) h

theorem asmWrite_ok {r g b : Nat} (hr : r < 256) (hg : g < 256) (hb : b < 256) :
    asmWrite r g b =
      .ok (0x02000000#32 ||| (BitVec.ofNat 32 r <<< 16) ||| (BitVec.ofNat 32 g <<< 8) ||| BitVec.ofNat 32 b) := by
  rw [asmWrite, if_pos ⟨hr, hg, hb⟩, encode_write_eq_or, setWidth_ofNat_channel hr, setWidth_ofNat_channel hg,
    setWidth_ofNat_channel hb]

theorem asmWrite_error {r g b : Nat} (h : 256 ≤ r ∨ 256 ≤ g ∨ 256 ≤ b) : asmWrite r g b = .error .operandRange :=
  if_neg (by omega)

/-! ### Frames -/

theorem asmWrite_channels (c : Colour) :
    asmWrite c.r.toNat c.g.toNat c.b.toNat = .ok (encode (.write c.r c.g c.b)) := by
  rw [asmWrite, if_pos ⟨c.r.isLt, c.g.isLt, c.b.isLt⟩]
  simp

theorem asmWrites_channels (cs : List Colour) :
    asmWrites (cs.map fun c => (c.r.toNat, c.g.toNat, c.b.toNat)) =
      .ok (cs.map fun c => encode (.write c.r c.g c.b)) := by
  induction cs with
  | nil => rfl
  | cons c cs ih => simp [asmWrites, asmWrite_channels, ih]

theorem asmFrame_channels {cs : List Colour} (h : cs ≠ []) :
    asmFrame (cs.map fun c => (c.r.toNat, c.g.toNat, c.b.toNat)) =
      .ok ((cs.map fun c => encode (.write c.r c.g c.b)) ++ [encode .endFrame]) := by
  simp [asmFrame, asmWrites_channels, h]

/-- `BLANK` is a `FRAME` of black pixels (R73). -/
theorem assembleCommand_blank {n : Nat} (h : 1 ≤ n) :
    assembleCommand (.blank n) = .ok (List.replicate n 0x02000000#32 ++ [0x03000000#32]) := by
  have hne : List.replicate n (⟨0, 0, 0⟩ : Colour) ≠ [] := by simp; omega
  have hframe := asmFrame_channels hne
  rw [List.map_replicate, List.map_replicate] at hframe
  exact hframe

/-! ### Text -/

/-- The mnemonics, aliases and pseudo-ops of a micro-program listing (R64, R70, R74). -/
def microNames : List (List Char) :=
  ["DRIVE_HIGH", "DRIVE_LOW", "DELAY_LONG", "DELAY_800", "DELAY_SHORT", "DELAY_400", "DELAY_TRIM", "DELAY_50",
    "HOLD_LATCH", "PULSE1", "PULSE0"].map String.toList

theorem parseMicro_of_notMem {m : List Char} (h : m ∉ microNames) : parseMicro m = none := by
  simp_all [microNames, parseMicro]

theorem mem_microNames_of_parseMicro {m : List Char} (h : (parseMicro m).isSome = true) : m ∈ microNames := by
  by_contra hm
  rw [parseMicro_of_notMem hm] at h
  cases h

/-- No name of a listing is a mnemonic of a HOST program (log entry 16). -/
theorem assembleLine_microNames : ∀ m ∈ microNames, assembleLine m = .error .badSyntax := by
  decide

/-- Settles O59: the commands' words field by field, the frames by induction on the colours, and the listings' lines read
one by one. -/
theorem assemblerWords : Obligations.AssemblerWords := by
  refine ⟨fun q => ?_, fun r g b hr hg hb => ?_, fun r g b h => ?_, by decide, by decide, by decide,
    fun _ => assembleCommand_blank, fun _ => asmFrame_channels, by decide, by decide, by decide, by decide, by decide,
    fun m h => assembleLine_microNames m (mem_microNames_of_parseMicro h)⟩
  · rw [assembleCommand, asmNew_eq]
  · rw [assembleCommand, asmWrite_ok hr hg hb]
  · rw [assembleCommand, asmWrite_error h]

end Sys2Proof.Machine
end

section
/-!
PROOFS. The channel-order policies (40_color_policy.md R78 to R89). Each policy puts the three channels one above another in
one word (R79 to R81), so what is true of three channels in any order is proved first, and a policy only names the order.
-/
namespace Sys2Proof.Machine

/-! ### Three channels in one word -/

/-- The bits of a channel, least significant first (R87). -/
def channelBits (x : Channel) : List Bool := (List.range 8).map x.getLsbD

section
variable (hi mid lo : Channel) (s : ColourWord)

@[simp] theorem sequenceOf_length : (sequenceOf s).length = 24 := by
  simp [sequenceOf, Config.nBits]

theorem sequenceOf_getElem? {i : Nat} (h : i < 24) : (sequenceOf s)[i]? = some (s.getLsbD i) := by
  simp [sequenceOf, Config.nBits, h]

/-- Each channel keeps its bits in their order, and the lowest channel goes first (R10, R87). -/
theorem getLsbD_channels {i : Nat} (h : i < 8) :
    (hi ++ mid ++ lo).getLsbD i = lo.getLsbD i ∧
      (hi ++ mid ++ lo).getLsbD (i + 8) = mid.getLsbD i ∧
      (hi ++ mid ++ lo).getLsbD (i + 16) = hi.getLsbD i := by
  have hlo (k : Nat) : ¬ k + 8 < 8 := by omega
  refine ⟨BitVec.getLsbD_append.trans (if_pos h), ?_, ?_⟩
  · simp only [BitVec.getLsbD_append, if_neg (hlo i), Nat.add_sub_cancel, if_pos h]
  · change (hi ++ mid ++ lo).getLsbD (i + 8 + 8) = _
    simp only [BitVec.getLsbD_append, if_neg (hlo _), Nat.add_sub_cancel]

theorem sequenceOf_channels :
    sequenceOf (hi ++ mid ++ lo) = channelBits lo ++ channelBits mid ++ channelBits hi := by
  have hrange : List.range 24 = List.range 8 ++ (List.range 8).map (· + 8) ++ (List.range 8).map (· + 16) := rfl
  have hbits (i : Nat) (h : i ∈ List.range 8) := getLsbD_channels hi mid lo (List.mem_range.mp h)
  simp only [sequenceOf, Config.nBits, hrange, List.map_append, List.map_map, channelBits]
  congr 1
  · congr 1
    · exact List.map_congr_left fun i h => (hbits i h).1
    · exact List.map_congr_left fun i h => (hbits i h).2.1
  · exact List.map_congr_left fun i h => (hbits i h).2.2

/-- The bit map of a channel order in the form of R79 to R81. -/
theorem sequenceOf_channels_getElem? {i : Nat} (h : i < 8) :
    (sequenceOf (hi ++ mid ++ lo))[i]? = some ((lo >>> i).getLsbD 0) ∧
      (sequenceOf (hi ++ mid ++ lo))[i + 8]? = some ((mid >>> i).getLsbD 0) ∧
      (sequenceOf (hi ++ mid ++ lo))[i + 16]? = some ((hi >>> i).getLsbD 0) := by
  obtain ⟨hlo, hmid, hhi⟩ := getLsbD_channels hi mid lo h
  simp only [BitVec.getLsbD_ushiftRight, Nat.add_zero]
  exact ⟨(sequenceOf_getElem? _ (by omega)).trans (congrArg some hlo),
    (sequenceOf_getElem? _ (by omega)).trans (congrArg some hmid),
    (sequenceOf_getElem? _ (by omega)).trans (congrArg some hhi)⟩

theorem toNat_channels : (hi ++ mid ++ lo).toNat = hi.toNat * 2 ^ 16 + mid.toNat * 2 ^ 8 + lo.toNat := by
  rw [BitVec.toNat_append, BitVec.toNat_append, ← Nat.shiftLeft_add_eq_or_of_lt mid.isLt,
    ← Nat.shiftLeft_add_eq_or_of_lt lo.isLt, Nat.shiftLeft_eq, Nat.shiftLeft_eq]
  ring

theorem countP_channelBits (x : Channel) : (channelBits x).countP (fun b => b) = (List.range 8).countP x.getLsbD :=
  List.countP_map

theorem countP_channels :
    (sequenceOf (hi ++ mid ++ lo)).countP (fun b => b) =
      (List.range 8).countP lo.getLsbD + (List.range 8).countP mid.getLsbD + (List.range 8).countP hi.getLsbD := by
  simp only [sequenceOf_channels, List.countP_append, countP_channelBits]

/-- A word is three channels exactly when they are its three bytes. -/
theorem channels_eq_iff :
    hi ++ mid ++ lo = s ↔ hi = s.extractLsb' 16 8 ∧ mid = s.extractLsb' 8 8 ∧ lo = s.extractLsb' 0 8 := by
  constructor
  · rintro rfl
    simp (disch := decide) only [BitVec.extractLsb'_append_eq_of_le, BitVec.extractLsb'_append_eq_right,
      BitVec.extractLsb'_eq_self, Nat.reduceSub, and_self]
  · rintro ⟨rfl, rfl, rfl⟩
    have hupper : s.extractLsb' 16 8 ++ s.extractLsb' 8 8 = s.extractLsb' 8 16 :=
      BitVec.extractLsb'_append_extractLsb'_eq_extractLsb' rfl
    rw [hupper]
    exact (BitVec.extractLsb'_append_extractLsb'_eq_extractLsb' rfl).trans BitVec.extractLsb'_eq_self

end

/-! ### The policies -/

/-- Settles O9: BRG is G above R above B. -/
theorem brgBitMap : Obligations.BrgBitMap :=
  ⟨fun c _ h => sequenceOf_channels_getElem? c.g c.r c.b h, fun c => toNat_channels c.g c.r c.b,
    fun _ _ h => sequenceOf_getElem? _ h, by decide, by decide⟩

/-- Settles O10: RGB is B above G above R. -/
theorem rgbBitMap : Obligations.RgbBitMap :=
  ⟨fun c _ h => sequenceOf_channels_getElem? c.b c.g c.r h, fun c => toNat_channels c.b c.g c.r, by decide, rfl, rfl⟩

/-- Settles O11: GRB is B above R above G. -/
theorem grbBitMap : Obligations.GrbBitMap :=
  ⟨fun c _ h => sequenceOf_channels_getElem? c.b c.r c.g h, fun c => toNat_channels c.b c.r c.g, by decide, rfl, rfl⟩

/-- The colour whose sequence under a policy is `s` (R85): the policy's order read backwards. -/
def colourFor (pol : Policy) (s : ColourWord) : Colour :=
  match pol with
  | .brg => { g := s.extractLsb' 16 8, r := s.extractLsb' 8 8, b := s.extractLsb' 0 8 }
  | .rgb => { b := s.extractLsb' 16 8, g := s.extractLsb' 8 8, r := s.extractLsb' 0 8 }
  | .grb => { b := s.extractLsb' 16 8, r := s.extractLsb' 8 8, g := s.extractLsb' 0 8 }

theorem bitsFor_eq_iff {pol : Policy} {c : Colour} {s : ColourWord} : bitsFor pol c = s ↔ c = colourFor pol s := by
  obtain ⟨r, g, b⟩ := c
  cases pol with
  | brg => exact (channels_eq_iff g r b s).trans (by simp only [colourFor, Colour.mk.injEq]; tauto)
  | rgb => exact (channels_eq_iff b g r s).trans (by simp only [colourFor, Colour.mk.injEq]; tauto)
  | grb => exact (channels_eq_iff b r g s).trans (by simp only [colourFor, Colour.mk.injEq]; tauto)

/-- Settles O12: the one colour is the policy's order read backwards. -/
theorem policyIsBijection : Obligations.PolicyIsBijection :=
  fun pol s => ⟨colourFor pol s, bitsFor_eq_iff.mpr rfl, fun _ => bitsFor_eq_iff.mp⟩

/-- Settles O13: a sequence is the bits of the three channels, and the policies differ in their order alone. -/
theorem policyKeepsOnes : Obligations.PolicyKeepsOnes := by
  intro pol c
  cases pol with
  | brg => exact (countP_channels c.g c.r c.b).trans (by omega)
  | rgb => exact countP_channels c.b c.g c.r
  | grb => exact (countP_channels c.b c.r c.g).trans (by omega)

/-- A colour with three equal channels has the same sequence under every policy (R88). -/
theorem sequenceOf_bitsFor_grey (pol : Policy) (x : Channel) :
    sequenceOf (bitsFor pol ⟨x, x, x⟩) = channelBits x ++ channelBits x ++ channelBits x := by
  cases pol <;> exact sequenceOf_channels x x x

/-- Settles O14: black and white have three equal channels; red under BRG is computed from its three channels. -/
theorem cornerColourSequences : Obligations.CornerColourSequences :=
  ⟨fun _ _ => sequenceOf_length _, fun pol => (sequenceOf_bitsFor_grey pol 0).trans (by decide),
    fun pol => (sequenceOf_bitsFor_grey pol 255).trans (by decide), (sequenceOf_channels 0 255 0).trans (by decide)⟩

end Sys2Proof.Machine
end

section
/-!
PROOFS. `NEW` that a check stops and `WRITE` in a bound state (43_writer_engine.md R115 to R117; 60_exceptions.md R153).
-/
namespace Sys2Proof.Machine

section
variable {p : Params} {pol : BitVec 2} {q : Policy} {s : State}

/-- `NEW` stopped by its first check (R153 step 1). -/
theorem newOn_of_no_policy (ha : s.accepting = true) (hq : policyOf p.hasExtraPolicies pol = none) :
    newOn p pol s = .next (s.takeWord.raiseFault .badPolicy) := by
  unfold newOn
  rw [issueCommand_resting _ (s.accepting_iff.mp ha)]
  simp [hq]

/-- `NEW` stopped by its second check (R153 step 2). -/
theorem newOn_of_bound (ha : s.accepting = true) (hb : s.bound = true)
    (hq : policyOf p.hasExtraPolicies pol = some q) :
    newOn p pol s = .next (s.takeWord.raiseFault .alreadyBound) := by
  unfold newOn
  rw [issueCommand_resting _ (s.accepting_iff.mp ha)]
  simp [hq, hb]

/-- `WRITE`'s check passes (R153 step 3), so it takes its word and starts the colour's sequence. -/
theorem writeOn_of_bound {r g b : Channel} (ha : s.accepting = true) (hb : s.bound = true)
    (hq : s.policy = some q) :
    writeOn r g b s = .next (s.takeWord.startWrite (bitsFor q (colourOf r g b))) := by
  unfold writeOn
  rw [issueCommand_resting _ (s.accepting_iff.mp ha)]
  simp [hb, hq]

end

/-- Settles O23: `NEW`'s two checks in turn, and the policy codes one by one. -/
theorem newFaults : Obligations.NewFaults :=
  ⟨fun _ _ => newOn_of_no_policy, fun _ _ _ => newOn_of_bound, fun hasExtra => by cases hasExtra <;> rfl,
    rfl, rfl, rfl, rfl⟩

/-- Settles O24: what `WRITE`'s acceptance leaves is the state the statement writes out. -/
theorem writeCompletes : Obligations.WriteCompletes :=
  fun _ _ _ _ _ => writeOn_of_bound

end Sys2Proof.Machine
end

section
/-!
PROOFS. The delay primitives and the latch hold (41_delay_primitives.md R90 to R96), and the stall that may fall between two
micro-ops (41 R97; 60_exceptions.md R162, R163).
-/
namespace Sys2Proof.Machine

/-! ### The stall -/

/-- Where ENGINE is between two micro-ops, by the command it runs (R162, log entry 10). -/
theorem State.betweenMicroOps_iff (s : State) : s.betweenMicroOps = true ↔
    (s.engState = .emitting ∧ (s.bitIdx ≠ 0 ∨ s.phase ≠ 0 ∨ s.trace ≠ [])) ∨
      (s.engState = .latching ∧ (s.phase ≠ 0 ∨ s.trace ≠ [])) := by
  unfold State.betweenMicroOps
  cases s.engState <;> simp

section
variable {p : Params} {s : State} {d : Ns} {rest : List Move}

/-- A stall in front of the schedule that the rules have is the step (R162). -/
theorem stepOn_of_stall (hs : s.schedule = .stall d :: rest) (hb : s.betweenMicroOps = true)
    (hp : p.preemption = true) (hd : 0 < d) : stepOn p s = .next (State.stallFor d { s with schedule := rest }) := by
  have hsettle : s.settle p = s := State.settle_of_head (by simp [hs, moveIsPossible, hb, hp, hd])
  unfold stepOn machineStep
  rw [if_pos (State.running_of_betweenMicroOps hb), hsettle]
  simp only [runningStep, hs]

/-- In EMITTING a stall is a timing violation (R163). -/
theorem State.stallFor_of_emitting (he : s.engState = .emitting) : s.stallFor d = (s.advance d).setTv := by
  simp only [State.stallFor, he]

/-- In LATCHING a stall is time and no more (R163). -/
theorem State.stallFor_of_latching (he : s.engState = .latching) : s.stallFor d = s.advance d := by
  simp only [State.stallFor, he]

/-- Before the first micro-op of all ENGINE is not between two of them (R162, log entry 10). -/
theorem State.betweenMicroOps_of_start (hp : s.phase = 0) (hn : s.engState = .emitting → s.bitIdx = 0)
    (ht : s.trace = []) : s.betweenMicroOps = false := by
  rw [Bool.eq_false_iff, ne_eq, State.betweenMicroOps_iff]
  rintro (⟨he, h⟩ | ⟨-, h⟩)
  · simp [hn he, hp, ht] at h
  · simp [hp, ht] at h

end

/-- Settles O40: a stall the rules have is `stallFor`, and each of the four ways not to be one drops it. -/
theorem stallEffects : Obligations.StallEffects := by
  refine ⟨fun p s d rest hp hd hs he hb => ?_, fun p s d rest hp hd hs he hb => ?_, fun p s d rest hs h => ?_⟩
  · rw [stepOn_of_stall hs (s.betweenMicroOps_iff.mpr (.inl ⟨he, hb⟩)) hp hd]
    exact congrArg _ (State.stallFor_of_emitting he)
  · rw [stepOn_of_stall hs (s.betweenMicroOps_iff.mpr (.inr ⟨he, hb⟩)) hp hd]
    exact congrArg _ (State.stallFor_of_latching he)
  · refine stepOn_of_impossible hs ?_
    obtain hp | hd | hr | ⟨hph, hn, ht⟩ := h
    · simp [moveIsPossible, hp]
    · simp [moveIsPossible, not_lt.mpr hd]
    · have hb : s.betweenMicroOps = false :=
        Bool.eq_false_iff.mpr fun hb => by simp [State.running_of_betweenMicroOps hb] at hr
      simp [moveIsPossible, hb]
    · simp [moveIsPossible, State.betweenMicroOps_of_start hph hn ht]

/-! ### The delays -/

section
variable {nominal : Ns} {dp : DelayPrimitive nominal} {s : State}

/-- What a delay leaves where the draw it takes is known (R90, R96). -/
theorem delayFor_of_draw {x : Ns} (h : dp.draw s.draws = x) :
    delayFor dp s = { s with t := s.t + x, draws := s.draws + 1 } := by
  subst h
  rfl

/-- The time a delay takes is its draw, which R96 bounds and R95 makes positive. -/
theorem delayFor_elapsed {u : State}
    (h : (.next (delayFor dp s) : Host.Outcome State Fault Refusal) = .next u) :
    nominal - dp.tol ≤ u.t - s.t ∧ u.t - s.t ≤ nominal + dp.tol ∧ s.t < u.t := by
  cases h
  rw [delayFor_t, add_sub_cancel_left]
  exact ⟨dp.draw_ge _, dp.draw_le _, lt_add_of_pos_right _ (dp.draw_pos _)⟩

end

/-- Settles O15: each primitive is `delayFor`, whose draws in the nominal model are the nominal durations. -/
theorem delayPrimitivesComplete : Obligations.DelayPrimitivesComplete :=
  ⟨fun _ => rfl, fun _ => rfl, fun _ => rfl, fun _ _ hnom =>
    ⟨congrArg _ (delayFor_of_draw (hnom.long _)), congrArg _ (delayFor_of_draw (hnom.short _)),
      congrArg _ (delayFor_of_draw (hnom.trim _))⟩⟩

/-- Settles O16: one bound for the three primitives. -/
theorem delaysWithinTolerance : Obligations.DelaysWithinTolerance :=
  ⟨fun _ _ => delayFor_elapsed (dp := Config.params.long), fun _ _ => delayFor_elapsed (dp := Config.params.short),
    fun _ _ => delayFor_elapsed (dp := Config.params.trim)⟩

/-- Settles O17: the hold advances time by `D_LATCH`, whose bound is the parameter's own and whose nominal value is that
bound (R7, R8). -/
theorem holdLatchCompletes : Obligations.HoldLatchCompletes :=
  ⟨fun _ => rfl, Config.params.dLatch_ge, fun p s hnom => by
    have hstep : execOn p .holdLatch s = .next { s with t := s.t + p.dLatch } := rfl
    rw [hstep, hnom.dLatch]
    rfl⟩

end Sys2Proof.Machine
end

section
/-!
PROOFS. The pin drives (42_pulse_emitter.md R103, R104), the period of a pulse (R109), the sequencer's position (R118, R120,
R128) and the waveform between two events (R105; 44_wire_protocol.md R138).
-/
namespace Sys2Proof.Machine

/-! ### The period of a pulse -/

section
variable {p : Params} {s : State}

/-- One delay of a pulse is long and the other short, so without deviation they take 1200 ns in either order (R109). -/
theorem highTime_add_lowTime (hl : p.long.tol = 0) (hs : p.short.tol = 0) (b : Bool) (m n : Nat) :
    highTime p b m + lowTime p b n = 1200 := by
  have hlong (k : Nat) : p.long.draw k = 800 := p.long.draw_of_tol_zero hl k
  have hshort (k : Nat) : p.short.draw k = 400 := p.short.draw_of_tol_zero hs k
  cases b
  · calc p.short.draw m + p.long.draw n = 400 + 800 := by rw [hshort, hlong]
      _ = 1200 := by norm_num
  · calc p.long.draw m + p.short.draw n = 800 + 400 := by rw [hlong, hshort]
      _ = 1200 := by norm_num

/-- A pulse is its two drives and three delays. -/
theorem State.afterPulse_t_sub : (s.afterPulse p).t - s.t =
    2 * p.dDrv + (highTime p s.bit s.draws + lowTime p s.bit (s.draws + 1)) + p.trim.draw (s.draws + 2) := by
  simp only [State.afterPulse]
  ring

end

/-- Settles O21: the five steps leave `afterPulse`, whose two drives take `2·D_DRV`, the long and the short delay 1200 ns and
the trim 50 ns. -/
theorem equalPulsePeriod : Obligations.EqualPulsePeriod := by
  intro p s u hl hs ht he hn hp hu hrun
  have hend : runOn p 5 s = .next (s.afterPulse p) := runOn_pulse ⟨he, hn, hu⟩ hp
  have htrim : p.trim.draw (s.draws + 2) = 50 := p.trim.draw_of_tol_zero ht _
  cases hend.symm.trans hrun
  rw [State.afterPulse_t_sub, highTime_add_lowTime hl hs, htrim]
  ring

/-! ### The waveform between two events -/

/-- The last event that has happened sets the level, whatever the level before (R105, R138). -/
theorem levelAfter_last {pre post : List PinEvent} {e : PinEvent} {τ : Ns} (l : Pin) (he : e.time ≤ τ)
    (hpost : ∀ f ∈ post, τ < f.time) : levelAfter l (pre ++ e :: post) τ = e.level.toPin := by
  have hset (l' : Pin) : levelAfter l' [e] τ = e.level.toPin := if_pos he
  rw [List.append_cons, levelAfter_append, levelAfter_append, hset, levelAfter_future _ _ _ hpost]

/-- Within the run the waveform has the level the trace gives, from UNKNOWN (R138). -/
theorem waveAt_eq {tr : List PinEvent} {tEnd τ : Ns} (h0 : 0 ≤ τ) (h1 : τ ≤ tEnd) :
    waveAt tr tEnd τ = some (levelAfter .unknown tr τ) :=
  if_pos ⟨h0, h1⟩

/-- Settles O53: the events still to come do not change the level, which is the last past event's or, without one, the
UNKNOWN of the start. -/
theorem levelPersists : Obligations.LevelPersists := by
  refine ⟨fun pre post e tEnd τ h0 h1 he hpost => ?_, fun tr tEnd τ h0 h1 htr => ?_⟩
  · rw [waveAt_eq h0 h1, levelAfter_last _ he hpost]
  · rw [waveAt_eq h0 h1, levelAfter_future _ _ _ htr]

/-! ### The drives -/

/-- A drive that takes no time only sets the pin and appends its event (R8, R103, R104). -/
theorem drive_of_dDrv_zero {p : Params} (h : p.dDrv = 0) (l : Level) (s : State) :
    drive p l s = { s with pin := l.toPin, trace := s.trace ++ [⟨s.t, l⟩] } := by
  have ht : s.t + p.dDrv = s.t := by rw [h, add_zero]
  calc drive p l s = { s with pin := l.toPin, trace := s.trace ++ [⟨s.t, l⟩], t := s.t + p.dDrv } := rfl
    _ = _ := by rw [ht]

/-- Settles O18: each drive is `drive`, whose `D_DRV` is not negative, and 0 in the nominal model (R7, R8). -/
theorem drivesComplete : Obligations.DrivesComplete :=
  ⟨fun _ => rfl, fun _ => rfl, Config.params.dDrv_nonneg, fun _ s hnom =>
    ⟨congrArg _ (drive_of_dDrv_zero hnom.dDrv .high s), congrArg _ (drive_of_dDrv_zero hnom.dDrv .low s)⟩⟩

/-! ### The sequencer's position -/

section
variable {s : State}

theorem State.selectedMicroOp_of_emitting (he : s.engState = .emitting) (hn : s.bitIdx.toNat < 24) :
    s.selectedMicroOp = (pulseFor s.bit)[s.phase.toNat]? := by
  simp only [State.selectedMicroOp, he]
  exact if_pos hn

theorem State.selectedMicroOp_of_latching (he : s.engState = .latching) :
    s.selectedMicroOp = latchProgram[s.phase.toNat]? := by
  simp only [State.selectedMicroOp, he]

theorem State.advancePosition_of_emitting (he : s.engState = .emitting) : s.advancePosition = s.advanceEmitting := by
  simp only [State.advancePosition, he]

theorem State.advancePosition_of_latching (he : s.engState = .latching) : s.advancePosition = s.advanceLatching := by
  simp only [State.advancePosition, he]

/-- Where ENGINE runs no command it has no micro-op and no position to advance (R128). -/
theorem State.sequencer_of_resting (hr : s.running = false) : s.selectedMicroOp = none ∧ s.advancePosition = s := by
  cases he : s.engState with
  | unbound | idle | faulted => simp only [State.selectedMicroOp, State.advancePosition, he, and_self]
  | emitting | latching => simp [State.running, he] at hr

/-- Before the trim (R118). -/
theorem State.advanceEmitting_inside (hp : s.phase.toNat < 4) : s.advanceEmitting = { s with phase := s.phase + 1 } :=
  if_pos hp

/-- After the trim of a pulse that is not the last (R118). -/
theorem State.advanceEmitting_nextPulse (hp : s.phase = 4) (hb : s.bitIdx.toNat < 23) :
    s.advanceEmitting = { s with phase := 0, bitIdx := s.bitIdx + 1 } := by
  have hlast : s.bitIdx.toNat + 1 ≠ Config.nBits := by simp only [Config.nBits]; omega
  simp [State.advanceEmitting, hp, hlast]

/-- After the trim of the last pulse (R119). -/
theorem State.advanceEmitting_lastPulse (hp : s.phase = 4) (hb : s.bitIdx = 23) :
    s.advanceEmitting = { s with phase := 0, bitIdx := 24, engState := .idle } := by
  simp [State.advanceEmitting, hp, hb, Config.nBits]

/-- From the drive to the hold (R120). -/
theorem State.advanceLatching_drive (hp : s.phase = 0) : s.advanceLatching = { s with phase := 1 } := by
  simp [State.advanceLatching, hp]

/-- After the hold (R120, R123). -/
theorem State.advanceLatching_hold (hp : s.phase = 1) : s.advanceLatching = { s with phase := 0, engState := .idle } := by
  simp [State.advanceLatching, hp]

end

/-- Settles O33: one law of the sequencer per position. -/
theorem sequencerPosition : Obligations.SequencerPosition :=
  ⟨fun _ he hn => State.selectedMicroOp_of_emitting he hn, fun _ he => State.selectedMicroOp_of_latching he,
    fun _ he hp => (State.advancePosition_of_emitting he).trans (State.advanceEmitting_inside hp),
    fun _ he hp hb => (State.advancePosition_of_emitting he).trans (State.advanceEmitting_nextPulse hp hb),
    fun _ he hp hb => (State.advancePosition_of_emitting he).trans (State.advanceEmitting_lastPulse hp hb),
    fun _ he hp => (State.advancePosition_of_latching he).trans (State.advanceLatching_drive hp),
    fun _ he hp => (State.advancePosition_of_latching he).trans (State.advanceLatching_hold hp),
    fun _ hr => State.sequencer_of_resting hr⟩

end Sys2Proof.Machine
end

section
/-!
PROOFS. HOST's issue by the state it finds (43_writer_engine.md R115, R120, R131; 60_exceptions.md R153): the state checks of
`WRITE` and `END_FRAME`, the order of the checks, and FAULTED, which takes every word unread.
-/
namespace Sys2Proof.Machine

section
variable {p : Params} {s : State}

/-- `WRITE` stopped by its check (R153 step 3). -/
theorem writeOn_of_unbound {r g b : Channel} (ha : s.accepting = true) (hb : s.bound = false) :
    writeOn r g b s = .next (s.takeWord.raiseFault .notBound) := by
  unfold writeOn
  rw [issueCommand_resting _ (s.accepting_iff.mp ha)]
  simp [hb]

/-- `END_FRAME`'s one check (R153 step 4), then its acceptance (R120). -/
theorem endFrameOn_of_accepting (ha : s.accepting = true) :
    endFrameOn s = .next (if s.bound then s.takeWord.startLatch else s.takeWord.raiseFault .notBound) := by
  unfold endFrameOn
  exact issueCommand_resting _ (s.accepting_iff.mp ha)

theorem endFrameOn_of_bound (ha : s.accepting = true) (hb : s.bound = true) :
    endFrameOn s = .next s.takeWord.startLatch := by
  rw [endFrameOn_of_accepting ha, if_pos hb]

theorem endFrameOn_of_unbound (ha : s.accepting = true) (hb : s.bound = false) :
    endFrameOn s = .next (s.takeWord.raiseFault .notBound) := by
  rw [endFrameOn_of_accepting ha, hb]
  rfl

/-- In FAULTED the word is taken before any check of the command (R131, R155). -/
theorem issueCommand_of_faulted (accept : State → Host.Outcome State Fault Refusal) (hf : s.engState = .faulted) :
    issueCommand s accept = .next s.takeWord := by
  simp only [issueCommand, hf]

theorem execOn_of_faulted {i : Instr} (hf : s.engState = .faulted) (hi : i.isCommand = true) :
    execOn p i s = .next s.takeWord := by
  cases i with
  | new | write | endFrame => simp only [execOn, newOn, writeOn, endFrameOn, issueCommand_of_faulted _ hf]
  | driveHigh | driveLow | delayLong | delayShort | delayTrim | holdLatch => simp [Instr.isCommand] at hi

/-- A `NEW` the port decodes names an implemented policy (R71, R86). -/
theorem policyOf_of_decodeCommand {hasExtra : Bool} {w : Word} {pol : BitVec 2}
    (h : decodeCommand hasExtra w = .ok (.new pol)) : ∃ q, policyOf hasExtra pol = some q := by
  rw [← Option.isSome_iff_exists, policyOf_isSome]
  exact (decodeCommand_ok.mp h).2

end

/-- Settles O25: `END_FRAME`'s one check passes, and what its acceptance leaves is the state the statement writes out. -/
theorem endFrameCompletes : Obligations.EndFrameCompletes :=
  fun _ => endFrameOn_of_bound

/-- Settles O28: both HOST's issue and a command's meaning look at FAULTED first. -/
theorem faultedIgnoresWords : Obligations.FaultedIgnoresWords :=
  ⟨fun _ _ hf => if_pos hf, fun s i hf hi => (exec_eq_execOn i s).trans (execOn_of_faulted hf hi)⟩

/-- Settles O30: the port's checks come first by `commandPortDecoder`; what is left is each command's check of BOUND, which
`NEW` reaches because the port lets only implemented policies through. -/
theorem orderOfChecks : Obligations.OrderOfChecks := by
  refine ⟨fun s w ha => ?_, fun s ha => reservedBitsFault.1 s _ ha (by decide) (by decide)⟩
  rw [commandPortDecoder.2 s w ha]
  cases hd : decodeCommand Config.params.hasExtraPolicies w with
  | error c => rfl
  | ok i =>
    cases i with
    | new pol =>
      obtain ⟨q, hq⟩ := policyOf_of_decodeCommand hd
      cases hb : s.bound
      · rfl
      · exact newOn_of_bound ha hb hq
    | write r g b =>
      cases hb : s.bound
      · exact writeOn_of_unbound ha hb
      · rfl
    | endFrame =>
      cases hb : s.bound
      · exact endFrameOn_of_unbound ha hb
      · rfl
    | driveHigh | driveLow | delayLong | delayShort | delayTrim | holdLatch => rfl

end Sys2Proof.Machine
end

section
/-!
PROOFS. HOST's step where ENGINE runs no command (43_writer_engine.md R115, R134): a gap, an issue or the end of the run; and
what HOST's gaps before an issue add up to (R178, R190).
-/
namespace Sys2Proof.Machine

section
variable {p : Params} {run : Instr → State → Host.Outcome State Fault Refusal} {s : State}

/-- Where no command runs and the next move is possible, the step is HOST's or the platform's, with nothing dropped. -/
theorem machineStep_of_resting (hr : s.running = false)
    (hm : ∀ m, s.schedule.head? = some m → moveIsPossible p s m = true) :
    machineStep p run s = restingStep run s := by
  rw [machineStep, if_neg (by simp [hr]), State.settle_of_head hm]

theorem machineStep_of_gap {g : Ns} {rest : List Move} (hr : s.running = false) (hs : s.schedule = .gap g :: rest)
    (hg : 0 ≤ g) : machineStep p run s = .next { s with t := s.t + g, schedule := rest } := by
  rw [machineStep_of_resting hr (by simp [hs, moveIsPossible, hg])]
  simp only [restingStep, hs, State.advance]

/-- With nothing scheduled HOST issues its next word (log entry 6). -/
theorem machineStep_of_no_move (hr : s.running = false) (hs : s.schedule = []) :
    machineStep p run s = issueStep run s := by
  rw [machineStep_of_resting hr (by simp [hs])]
  simp only [restingStep, hs]

theorem machineStep_of_issue {rest : List Move} (hr : s.running = false) (hs : s.schedule = .issue :: rest) :
    machineStep p run s = issueStep run { s with schedule := rest } := by
  rw [machineStep_of_resting hr (by simp [hs, moveIsPossible])]
  simp only [restingStep, hs]

theorem issueStep_of_nextWord {w : Word} (hw : s.nextWord = some w) : issueStep run s = issueWord run w s := by
  simp only [issueStep, hw]

theorem issueStep_of_exhausted (hw : s.nextWord = none) : issueStep run s = .fault .streamExhausted := by
  simp only [issueStep, hw]

/-- The issue of a word that is a command is that command (R71, R115). -/
theorem issueWord_of_decodeCommand {w : Word} {i : Instr} (ha : s.accepting = true)
    (hd : decodeCommand Config.params.hasExtraPolicies w = .ok i) : issueWord exec w s = exec i s := by
  rw [commandPortDecoder.2 s w ha, hd]

end

/-- Settles O35: a gap in front that is not negative is the step, and the step is its advance of time. -/
theorem gapOnlyAdvancesTime : Obligations.GapOnlyAdvancesTime :=
  fun _ _ _ => machineStep_of_gap

/-- Settles O36: HOST's default step is an issue, for which there is no word. -/
theorem runEnds : Obligations.RunEnds :=
  fun _ hr hs hw => (machineStep_of_no_move hr hs).trans (issueStep_of_exhausted hw)

theorem step_of_no_move {s : State} {w : Word} (hr : s.running = false) (hs : s.schedule = [])
    (hw : s.nextWord = some w) : step s = issueWord exec w s :=
  (machineStep_of_no_move hr hs).trans (issueStep_of_nextWord hw)

theorem step_of_issue {s : State} {w : Word} {rest : List Move} (hr : s.running = false)
    (hs : s.schedule = .issue :: rest) (hw : s.nextWord = some w) :
    step s = issueWord exec w { s with schedule := rest } :=
  (machineStep_of_issue hr hs).trans (issueStep_of_nextWord hw)

/-- Settles O31: by default and on request the step is the issue of HOST's next word, which is the command it decodes to. -/
theorem stepRunsCommand : Obligations.StepRunsCommand :=
  ⟨fun _ _ => step_of_no_move, fun _ _ _ => step_of_issue,
    fun _ _ _ ha hs hw hd =>
      (step_of_no_move (State.running_of_accepting ha) hs hw).trans (issueWord_of_decodeCommand ha hd),
    fun _ _ _ _ ha hs hw hd =>
      (step_of_issue (State.running_of_accepting ha) hs hw).trans (issueWord_of_decodeCommand ha hd)⟩

/-! ### Gaps before an issue -/

/-- HOST's gaps before an issue, each one step (R115). -/
theorem runOn_gaps (p : Params) {s : State} {gaps : List Ns} {rest : List Move} (hr : s.running = false)
    (hg : ∀ g ∈ gaps, 0 ≤ g) (hs : s.schedule = gaps.map Move.gap ++ rest) :
    runOn p gaps.length s = .next { s with t := s.t + gaps.sum, schedule := rest } := by
  induction gaps generalizing s with
  | nil =>
    have hrest : rest = s.schedule := hs.symm
    rw [hrest, List.sum_nil, add_zero]
    rfl
  | cons g gs ih =>
    obtain ⟨hg0, hgs⟩ := List.forall_mem_cons.mp hg
    have hstep : stepOn p s = .next { s with t := s.t + g, schedule := gs.map Move.gap ++ rest } :=
      machineStep_of_gap hr hs hg0
    have hrun := ih (s := { s with t := s.t + g, schedule := gs.map Move.gap ++ rest }) hr hgs rfl
    rw [List.length_cons, runOn_succ_of_next hstep, hrun, List.sum_cons, ← add_assoc]

theorem gapBefore_gaps {gaps : List Ns} (hg : ∀ g ∈ gaps, 0 ≤ g) (rest : List Move) :
    gapBefore (gaps.map Move.gap ++ .issue :: rest) 0 = gaps.sum := by
  induction gaps with
  | nil => rfl
  | cons g gs ih =>
    obtain ⟨hg0, hgs⟩ := List.forall_mem_cons.mp hg
    simp [gapBefore, hg0, ih hgs]

/-- The gaps before an issue are no part of the idle time before a later one (R178). -/
theorem gapBefore_gaps_succ (gaps : List Ns) (rest : List Move) (k : Nat) :
    gapBefore (gaps.map Move.gap ++ .issue :: rest) (k + 1) = gapBefore rest k := by
  induction gaps with
  | nil => rfl
  | cons g gs ih => exact ih

theorem isWrite_iff (i : Instr) : isWrite i = true ↔ ∃ r g b, i = .write r g b := by
  cases i <;> simp [isWrite]

theorem isWrite_getElem?_iff (cmds : List Instr) (k : Nat) :
    (cmds[k]?.map isWrite).getD false = true ↔ ∃ r g b, cmds[k]? = some (.write r g b) := by
  cases cmds[k]? <;> simp [isWrite_iff]

theorem chainedAt_iff (cmds : List Instr) (k : Nat) : chainedAt cmds k = true ↔
    ∃ r g b r' g' b', cmds[k]? = some (.write r g b) ∧ cmds[k + 1]? = some (.write r' g' b') := by
  simp only [chainedAt, Bool.and_eq_true, isWrite_getElem?_iff]
  constructor
  · rintro ⟨⟨r, g, b, h⟩, r', g', b', h'⟩
    exact ⟨r, g, b, r', g', b', h, h'⟩
  · rintro ⟨r, g, b, r', g', b', h, h'⟩
    exact ⟨⟨r, g, b, h⟩, r', g', b', h'⟩

theorem lt_length_of_chainedAt {cmds : List Instr} {k : Nat} (h : chainedAt cmds k = true) : k < cmds.length := by
  obtain ⟨r, g, b, -, -, -, hk, -⟩ := (chainedAt_iff cmds k).mp h
  exact (List.getElem?_eq_some_iff.mp hk).1

/-- Settles O60: the gaps one by one, and the duty read at each pair of `WRITE`s, which the stream's length bounds. -/
theorem gapsAddUp : Obligations.GapsAddUp := by
  refine ⟨fun p s gaps rest hr hg hs => ?_, fun p cmds moves => ?_⟩
  · rw [hs]
    exact ⟨runOn_gaps p hr hg hs, gapBefore_gaps hg rest, gapBefore_gaps_succ gaps rest⟩
  · simp only [frameGapsWithin, List.all_eq_true, List.mem_range, Bool.or_eq_true, Bool.not_eq_true',
      decide_eq_true_eq, ← chainedAt_iff]
    constructor
    · intro h k hc
      exact (h k (lt_length_of_chainedAt hc)).resolve_left (by simp [hc])
    · intro h k _
      cases hc : chainedAt cmds k
      · exact .inl rfl
      · exact .inr (h k hc)

end Sys2Proof.Machine
end

section
/-!
PROOFS. An undisturbed `WRITE` (43_writer_engine.md R118, R119, R129, R130): 24 whole pulses, each within the bounds of its two
drives and three delays, and ENGINE is EMITTING at every step in between.
-/
namespace Sys2Proof.Machine

@[simp] theorem afterOp_bitIdx (p : Params) (i : Instr) (s : State) : (afterOp p i s).bitIdx = s.bitIdx := by
  cases i <;> rfl

section
variable {p : Params} {s : State}

/-! ### Inside a pulse -/

/-- A micro-op before the trim leaves ENGINE in the same pulse, one PHASE on (R118). -/
theorem stepOn_within_pulse (h : s.Pulsing) (hk : s.phase.toNat < 4) :
    ∃ u, stepOn p s = .next u ∧ u.Pulsing ∧ u.phase.toNat = s.phase.toNat + 1 := by
  have ⟨he, hn, hu⟩ := h
  have hlen : s.phase.toNat < [Instr.driveHigh, highDelay s.bit, .driveLow, lowDelay s.bit, .delayTrim].length :=
    Nat.lt_succ_of_lt hk
  refine ⟨_, stepOn_of_pulsing h (List.getElem?_eq_getElem hlen), ?_⟩
  rw [State.afterMicroOp_inside (by simp [he]) (by simpa using hk), afterOp_phase]
  refine ⟨⟨by simp [he], by simp [hn], ?_⟩, ?_⟩
  · exact (State.undisturbed_congr (by simp)).trans hu
  · simp only [BitVec.toNat_add]
    exact Nat.mod_eq_of_lt (by simp; omega)

theorem runOn_within_pulse (h : s.Pulsing) (hp : s.phase = 0) {r : Nat} (hr : r < 5) :
    ∃ v, runOn p r s = .next v ∧ v.Pulsing ∧ v.phase.toNat = r := by
  induction r with
  | zero => exact ⟨s, rfl, h, by simp [hp]⟩
  | succ r ih =>
    obtain ⟨v, hv, hpulse, hphase⟩ := ih (by omega)
    obtain ⟨u, hu, hpulse', hphase'⟩ := stepOn_within_pulse (p := p) hpulse (by omega)
    refine ⟨u, ?_, hpulse', by omega⟩
    rw [runOn_add p _ _ _ _ hv, runOn_succ_of_next hu]
    rfl

/-- Before its last micro-op a `WRITE` is in one of its 24 pulses (R118). -/
theorem runOn_write_emitting (h : s.Pulsing) (hb : s.bitIdx = 0) (hp : s.phase = 0) {k : Nat} (hk : k < 120) :
    ∃ v, runOn p k s = .next v ∧ v.engState = .emitting := by
  have hpulse := State.afterPulses_pulsing (p := p) h hb (k := k / 5) (by omega)
  obtain ⟨v, hv, hv', -⟩ :=
    runOn_within_pulse (p := p) hpulse (State.afterPulses_phase hp _) (Nat.mod_lt k (by decide))
  refine ⟨v, ?_, hv'.emitting⟩
  rw [← Nat.div_add_mod k 5, runOn_add p _ _ _ _ (runOn_pulses h hb hp (by omega)), hv]

/-! ### What whole pulses leave -/

theorem State.afterPulses_frame (k : Nat) :
    (s.afterPulses p k).hostIdx = s.hostIdx ∧ (s.afterPulses p k).stream = s.stream ∧
      (s.afterPulses p k).faultCode = s.faultCode ∧ (s.afterPulses p k).tv = s.tv ∧
      (s.afterPulses p k).bound = s.bound ∧ (s.afterPulses p k).policy = s.policy := by
  induction k with
  | zero => simp [State.afterPulses]
  | succ k ih => rw [afterPulses_succ]; exact ih

/-- Every pulse has its rise and its fall (R106, R107). -/
theorem State.afterPulses_trace_length (k : Nat) : (s.afterPulses p k).trace.length = s.trace.length + 2 * k := by
  induction k with
  | zero => rfl
  | succ k ih =>
    rw [afterPulses_succ, State.afterPulse]
    simp only [List.length_append, ih, List.length_cons, List.length_nil]
    omega

theorem State.afterPulses_microTrace (hb : s.bitIdx = 0) {k : Nat} (hk : k ≤ 24) :
    (s.afterPulses p k).microTrace =
      s.microTrace ++ ((List.range k).flatMap fun i => pulseFor (s.seq.getLsbD i)).map encode := by
  induction k with
  | zero => simp [State.afterPulses]
  | succ k ih =>
    have hprev : k ≤ 24 := by omega
    rw [afterPulses_succ, State.afterPulse]
    simp only [ih hprev, afterPulses_bit hb hprev, List.range_succ, List.flatMap_append, List.flatMap_singleton,
      List.map_append, List.append_assoc]

/-- The last pulse ends the `WRITE` with the pin low (R119). -/
theorem State.afterPulses_last (hb : s.bitIdx = 0) :
    (s.afterPulses p 24).engState = .idle ∧ (s.afterPulses p 24).pin = .low := by
  have h23 : (s.afterPulses p 23).bitIdx.toNat = 23 := afterPulses_bitIdx hb (by decide)
  rw [afterPulses_succ]
  simp [State.afterPulse, h23]

/-! ### The time whole pulses take -/

/-- One delay of a pulse is long and the other short, whichever comes first (R96, R106, R107). -/
theorem highTime_add_lowTime_bounds (p : Params) (b : Bool) (m n : Nat) :
    1200 - p.long.tol - p.short.tol ≤ highTime p b m + lowTime p b n ∧
      highTime p b m + lowTime p b n ≤ 1200 + p.long.tol + p.short.tol := by
  have hlong (k : Nat) : 800 - p.long.tol ≤ p.long.draw k ∧ p.long.draw k ≤ 800 + p.long.tol :=
    ⟨p.long.draw_ge k, p.long.draw_le k⟩
  have hshort (k : Nat) : 400 - p.short.tol ≤ p.short.draw k ∧ p.short.draw k ≤ 400 + p.short.tol :=
    ⟨p.short.draw_ge k, p.short.draw_le k⟩
  cases b
  · change _ ≤ p.short.draw m + p.long.draw n ∧ p.short.draw m + p.long.draw n ≤ _
    constructor <;> linarith [hshort m, hlong n]
  · change _ ≤ p.long.draw m + p.short.draw n ∧ p.long.draw m + p.short.draw n ≤ _
    constructor <;> linarith [hlong m, hshort n]

theorem State.afterPulse_t_bounds (p : Params) (s : State) :
    2 * p.dDrv + 1250 - p.long.tol - p.short.tol - p.trim.tol ≤ (s.afterPulse p).t - s.t ∧
      (s.afterPulse p).t - s.t ≤ 2 * p.dDrv + 1250 + p.long.tol + p.short.tol + p.trim.tol := by
  obtain ⟨hlo, hhi⟩ := highTime_add_lowTime_bounds p s.bit s.draws (s.draws + 1)
  have htlo : 50 - p.trim.tol ≤ p.trim.draw (s.draws + 2) := p.trim.draw_ge _
  have hthi : p.trim.draw (s.draws + 2) ≤ 50 + p.trim.tol := p.trim.draw_le _
  rw [State.afterPulse_t_sub]
  constructor <;> linarith

theorem State.afterPulses_t_bounds (p : Params) (s : State) (k : Nat) :
    k * (2 * p.dDrv + 1250 - p.long.tol - p.short.tol - p.trim.tol) ≤ (s.afterPulses p k).t - s.t ∧
      (s.afterPulses p k).t - s.t ≤ k * (2 * p.dDrv + 1250 + p.long.tol + p.short.tol + p.trim.tol) := by
  induction k with
  | zero => simp [State.afterPulses]
  | succ k ih =>
    obtain ⟨hlo, hhi⟩ := State.afterPulse_t_bounds p (s.afterPulses p k)
    rw [afterPulses_succ, Nat.cast_succ, add_one_mul, add_one_mul]
    constructor <;> linarith

end

/-- Settles O37: the run is 24 whole pulses, and each part of the statement is known of any number of them. -/
theorem writeRun : Obligations.WriteRun := by
  intro p s he hb hp hu
  have h : s.Pulsing := ⟨he, by simp [hb], hu⟩
  obtain ⟨hidle, hlow⟩ := State.afterPulses_last (p := p) hb
  have htime := State.afterPulses_t_bounds p s 24
  rw [Nat.cast_ofNat] at htime
  obtain ⟨hidx, hstream, hfault, htv, hbound, hpolicy⟩ := State.afterPulses_frame (p := p) (s := s) 24
  exact ⟨⟨s.afterPulses p 24, runOn_pulses h hb hp le_rfl, hidle, hlow, State.afterPulses_microTrace hb le_rfl,
    State.afterPulses_trace_length 24, hidx, hstream, State.afterPulses_schedule 24, hfault, htv, hbound, hpolicy,
    State.afterPulses_seq 24, htime⟩, fun _ => runOn_write_emitting h hb hp⟩

end Sys2Proof.Machine
end

section
/-!
PROOFS. An undisturbed `END_FRAME` (43_writer_engine.md R120, R121, R130): its two micro-ops, and the low they leave.
-/
namespace Sys2Proof.Machine

section
variable {p : Params} {s : State}

theorem stepOn_latch_drive (he : s.engState = .latching) (hp : s.phase = 0) (hu : s.undisturbed = true) :
    stepOn p s = .next { s with
      pin := .low
      trace := s.trace ++ [⟨s.t, .low⟩]
      t := s.t + p.dDrv
      phase := 1
      microTrace := s.microTrace ++ [encode .driveLow] } := by
  have he' : (afterOp p .driveLow s).engState = .latching := he
  have hi : s.selectedMicroOp = some .driveLow := by rw [State.selectedMicroOp_of_latching he, hp]; rfl
  rw [stepOn_of_selected (s.running_iff.mpr (.inr he)) hu hi, State.afterMicroOp_latch_drive he' hp]
  rfl

theorem stepOn_latch_hold (he : s.engState = .latching) (hp : s.phase = 1) (hu : s.undisturbed = true) :
    stepOn p s = .next { s with
      engState := .idle
      t := s.t + p.dLatch
      phase := 0
      microTrace := s.microTrace ++ [encode .holdLatch] } := by
  have he' : (afterOp p .holdLatch s).engState = .latching := he
  have hi : s.selectedMicroOp = some .holdLatch := by rw [State.selectedMicroOp_of_latching he, hp]; rfl
  rw [stepOn_of_selected (s.running_iff.mpr (.inr he)) hu hi, State.afterMicroOp_latch_hold he' hp]
  rfl

theorem runOn_latch (he : s.engState = .latching) (hp : s.phase = 0) (hu : s.undisturbed = true) :
    runOn p 2 s = .next { s with
      engState := .idle
      pin := .low
      trace := s.trace ++ [⟨s.t, .low⟩]
      t := s.t + p.dDrv + p.dLatch
      phase := 0
      microTrace := s.microTrace ++ [encode .driveLow, encode .holdLatch] } := by
  refine Eq.trans (runOn_succ_of_next (stepOn_latch_drive he hp hu)) ?_
  refine Eq.trans (runOn_succ_of_next (stepOn_latch_hold he rfl hu)) ?_
  simp [runOn]

end

/-- Settles O39: the two steps take `D_DRV` and `D_LATCH`, and their one event is the last of the trace. -/
theorem endFrameRun : Obligations.EndFrameRun := by
  intro p s he hp hu ht
  have hdrv := p.dDrv_nonneg
  have hlatch : 300000 ≤ p.dLatch := p.dLatch_ge
  refine ⟨_, runOn_latch he hp hu, rfl, rfl, rfl, rfl, rfl, ?_, rfl, rfl, rfl, fun τ h0 h1 => ?_⟩
  · calc (300000 : Ns) ≤ p.dDrv + p.dLatch := by linarith
      _ = s.t + p.dDrv + p.dLatch - s.t := by ring
  · exact levelPersists.1 s.trace [] ⟨s.t, .low⟩ _ τ (ht.trans h0) h1 h0 (by simp)

end Sys2Proof.Machine
end

section
/-!
PROOFS. Progress (43_writer_engine.md R128, R134): from a state with the invariant ENGINE's step and HOST's issue of any word
give a next state, so a step stops only where HOST has no further word.
-/
namespace Sys2Proof.Machine

section
variable {p : Params} {s : State}

/-- In a state with the invariant the position of a running command selects a micro-op (R28, R29, R128). -/
theorem State.Inv.exists_selectedMicroOp (h : s.Inv p) (hr : s.running = true) : ∃ i, s.selectedMicroOp = some i := by
  rcases s.running_iff.mp hr with he | he
  · obtain ⟨hn, hp⟩ := h.emitting_position he
    rw [State.selectedMicroOp_of_emitting he hn, pulseFor_eq]
    exact ⟨_, List.getElem?_eq_getElem hp⟩
  · rw [State.selectedMicroOp_of_latching he]
    exact ⟨_, List.getElem?_eq_getElem (h.latching_position he)⟩

theorem State.Inv.exists_engineStep (h : s.Inv p) (hr : s.running = true) : ∃ u, engineStep (execOn p) s = .next u := by
  obtain ⟨i, hi⟩ := h.exists_selectedMicroOp hr
  exact ⟨_, engineStep_of_selected hi⟩

/-- A bound ENGINE has a policy (R23, R24), so a `WRITE` finds one. -/
theorem State.Inv.exists_writeOn (h : s.Inv p) (ha : s.accepting = true) (r g b : Channel) :
    ∃ u, writeOn r g b s = .next u := by
  cases hb : s.bound with
  | false => exact ⟨_, writeOn_of_unbound ha hb⟩
  | true =>
    obtain ⟨q, hq⟩ := Option.isSome_iff_exists.mp (h.bound_iff.symm.trans hb)
    exact ⟨_, writeOn_of_bound ha hb hq⟩

theorem State.Inv.exists_execOn (h : s.Inv p) (ha : s.accepting = true) (i : Instr) : ∃ u, execOn p i s = .next u := by
  cases i with
  | new pol =>
    rw [execOn, newOn, issueCommand_resting _ (s.accepting_iff.mp ha)]
    exact ⟨_, rfl⟩
  | write r g b => exact h.exists_writeOn ha r g b
  | endFrame => exact ⟨_, endFrameOn_of_accepting ha⟩
  | driveHigh | driveLow | delayLong | delayShort | delayTrim | holdLatch => exact ⟨_, execOn_microOp p _ s rfl⟩

theorem State.Inv.exists_issueWord (h : s.Inv p) (hr : s.running = false) (w : Word) :
    ∃ u, issueWord (execOn p) w s = .next u := by
  by_cases hf : s.engState = .faulted
  · exact ⟨_, if_pos hf⟩
  · have ha := State.accepting_of_resting hr hf
    cases hw : portCommand w with
    | error c => exact ⟨_, issueWord_of_error ha hw⟩
    | ok i =>
      obtain ⟨u, hu⟩ := h.exists_execOn ha i
      exact ⟨u, by simp [issueWord, hf, hw, hu]⟩

theorem State.Inv.issueStep_progress (h : s.Inv p) (hr : s.running = false) :
    (∃ u, issueStep (execOn p) s = .next u) ∨
      (issueStep (execOn p) s = .fault .streamExhausted ∧ s.nextWord = none) := by
  cases hw : s.nextWord with
  | none => exact .inr ⟨issueStep_of_exhausted hw, rfl⟩
  | some w =>
    rw [issueStep_of_nextWord hw]
    exact .inl (h.exists_issueWord hr w)

/-- While ENGINE runs a command a step is a reset, a stall or ENGINE's own (R128, R162, R173). -/
theorem State.Inv.runningStep_progress (h : s.Inv p) (hr : s.running = true) :
    ∃ u, runningStep (execOn p) s = .next u := by
  cases hs : s.schedule with
  | nil => simpa only [runningStep, hs] using h.exists_engineStep hr
  | cons m rest =>
    cases m with
    | gap | issue => simpa only [runningStep, hs] using h.exists_engineStep hr
    | microOp => simpa only [runningStep, hs] using (h.with_schedule rest).exists_engineStep hr
    | stall | reset => simp [runningStep, hs]

/-- Where ENGINE runs no command a step is a reset, a gap or HOST's issue (R115, R171). -/
theorem State.Inv.restingStep_progress (h : s.Inv p) (hr : s.running = false) :
    (∃ u, restingStep (execOn p) s = .next u) ∨
      (restingStep (execOn p) s = .fault .streamExhausted ∧ s.nextWord = none) := by
  cases hs : s.schedule with
  | nil => simpa only [restingStep, hs] using h.issueStep_progress hr
  | cons m rest =>
    cases m with
    | issue | microOp | stall =>
      simp only [restingStep, hs]
      exact (h.with_schedule rest).issueStep_progress hr
    | gap | reset => simp [restingStep, hs]

end

/-- Settles O48: settling keeps the invariant, and from it ENGINE always has a step and HOST has one while words are left. -/
theorem stepsUntilTheEnd : Obligations.StepsUntilTheEnd := by
  intro s h
  have hset : (s.settle Config.params).Inv Config.params := h.with_schedule _
  rw [step_eq_stepOn, stepOn, machineStep]
  cases hr : s.running with
  | true => exact .inl (hset.runningStep_progress hr)
  | false =>
    refine (hset.restingStep_progress hr).imp_right fun ⟨hstop, hnone⟩ => ⟨hstop, ?_⟩
    have hw : s.nextWord = none := hnone
    simp [State.ended, hw, hr]

end Sys2Proof.Machine
end

section
/-!
PROOFS. The bit of a pulse (44_wire_protocol.md R140, R142) and the words of a frame's bits (R145, R146).
-/
namespace Sys2Proof.Machine

/-! ### The bit of a pulse -/

theorem within_iff (tolRx n x : Ns) : within tolRx n x = true ↔ |x - n| ≤ tolRx := by
  rw [within, Bool.and_eq_true, decide_eq_true_eq, decide_eq_true_eq, abs_le]
  constructor <;> rintro ⟨h1, h2⟩ <;> constructor <;> linarith

/-- A latch takes the place of any bit's low phase (R142). -/
theorem lowPhase_iff (tolRx n l : Ns) :
    (within tolRx n l || isLatchLow l) = true ↔ |l - n| ≤ tolRx ∨ 300000 ≤ l := by
  rw [Bool.or_eq_true, within_iff, isLatchLow, decide_eq_true_eq]
  rfl

/-- `TOL_RX` is less than half of `T1H - T0H` (R140). -/
theorem not_both_classes {tolRx h : Ns} (ht : tolRx < 200) (h1 : |h - 800| ≤ tolRx) (h0 : |h - 400| ≤ tolRx) : False := by
  rw [abs_le] at h1 h0
  linarith [h1.1, h0.2]

theorem classifyPulse_eq (tolRx h l : Ns) :
    classifyPulse tolRx h l =
      if |h - 800| ≤ tolRx ∧ (|l - 450| ≤ tolRx ∨ 300000 ≤ l) then some true
      else if |h - 400| ≤ tolRx ∧ (|l - 850| ≤ tolRx ∨ 300000 ≤ l) then some false
      else none := by
  simp only [classifyPulse, Bool.and_eq_true, within_iff, lowPhase_iff, Config.t1h, Config.t1l, Config.t0h, Config.t0l]

/-- Settles O57: the classifier asks for a one first, and no pulse that is a one is a zero as well. -/
theorem pulseClassification : Obligations.PulseClassification := by
  refine ⟨fun tolRx h _ ht hb => ?_, within_iff, fun tolRx h l _ ht => ?_⟩
  · exact not_both_classes ht ((within_iff ..).mp hb.1) ((within_iff ..).mp hb.2)
  · rw [classifyPulse_eq]
    by_cases h1 : |h - 800| ≤ tolRx ∧ (|l - 450| ≤ tolRx ∨ 300000 ≤ l)
    · have h0 : ¬|h - 400| ≤ tolRx := fun h0 => not_both_classes ht h1.1 h0
      simp [h1, h0]
    · by_cases h0 : |h - 400| ≤ tolRx ∧ (|l - 850| ≤ tolRx ∨ 300000 ≤ l) <;> simp [h1, h0]

/-! ### The words of a frame -/

/-- The last bit of a list has the highest weight (R145). -/
theorem bitsToNat_concat (l : List Bool) (b : Bool) : bitsToNat (l ++ [b]) = bitsToNat l + 2 ^ l.length * b.toNat := by
  induction l with
  | nil => simp [bitsToNat]
  | cons a l ih =>
    simp only [List.cons_append, bitsToNat, ih, List.length_cons, pow_succ]
    ring

theorem bitsToNat_range (s : ColourWord) (n : Nat) : bitsToNat ((List.range n).map s.getLsbD) = s.toNat % 2 ^ n := by
  induction n with
  | zero => simp [bitsToNat, Nat.mod_one]
  | succ n ih =>
    rw [List.range_succ, List.map_append, List.map_singleton, bitsToNat_concat, ih, List.length_map,
      List.length_range, Nat.mod_pow_succ, BitVec.getLsbD, Nat.toNat_testBit]

theorem ofNat_bitsToNat_sequenceOf (s : ColourWord) : BitVec.ofNat 24 (bitsToNat (sequenceOf s)) = s := by
  apply BitVec.eq_of_toNat_eq
  rw [sequenceOf, bitsToNat_range, BitVec.toNat_ofNat, Config.nBits, Nat.mod_mod, Nat.mod_eq_of_lt s.isLt]

/-- Settles O56: each word's 24 bits are taken in turn, and their weights are those of the word. -/
theorem colourWordsReadBack : Obligations.ColourWordsReadBack := by
  intro words
  induction words with
  | nil => rfl
  | cons w ws ih =>
    have hlen : (sequenceOf w).length = 24 := sequenceOf_length w
    rw [List.length_cons, List.flatMap_cons, colourWords, List.take_left' hlen, List.drop_left' hlen,
      ofNat_bitsToNat_sequenceOf, ih]

/-! ### Before the first latch -/

theorem afterFirstLatch_eq_nil {l : List Segment} (h : ∀ x ∈ l, x.isLatch = false) : afterFirstLatch l = [] := by
  induction l with
  | nil => rfl
  | cons x rest ih =>
    obtain ⟨hx, hrest⟩ := List.forall_mem_cons.mp h
    simp [afterFirstLatch, hx, ih hrest]

/-- Settles O55: without a latch no segment follows the first one, and the walk has nothing to read. -/
theorem nothingBeforeTheFirstLatch : Obligations.NothingBeforeTheFirstLatch := by
  intro tolRx tr tEnd h
  simp only [decodeWire, afterFirstLatch_eq_nil h, walkSegments]

end Sys2Proof.Machine
end

section
/-!
PROOFS. `SEGMENTS(W)` (44_wire_protocol.md R138, R139, R141): merging leaves segments of positive length whose neighbours
differ in level, and keeps what the intervals between the events do: they tile a stretch of time, each with the waveform's
level.
-/
namespace Sys2Proof.Machine

/-! ### Merging, interval by interval -/

@[simp] theorem mergeSegments_nil : mergeSegments [] = [] := rfl

theorem mergeSegments_cons_of_pos {x : Segment} (h : 0 < x.dur) (l : List Segment) :
    mergeSegments (x :: l) = joinSegment x (mergeSegments l) := by
  simp [mergeSegments, h]

theorem mergeSegments_cons_of_not_pos {x : Segment} (h : ¬0 < x.dur) (l : List Segment) :
    mergeSegments (x :: l) = mergeSegments l := by
  simp [mergeSegments, h]

theorem joinSegment_cons_same {x y : Segment} (h : x.level = y.level) (l : List Segment) :
    joinSegment x (y :: l) = ⟨x.level, x.start, x.dur + y.dur⟩ :: l :=
  if_pos h

theorem joinSegment_cons_other {x y : Segment} (h : x.level ≠ y.level) (l : List Segment) :
    joinSegment x (y :: l) = x :: y :: l :=
  if_neg h

/-- A list's segments are maximal: each has a positive length and neighbours differ in level (R139). -/
def Maximal (l : List Segment) : Prop :=
  (∀ x ∈ l, 0 < x.dur) ∧ l.IsChain fun x y => x.level ≠ y.level

theorem Maximal.joinSegment {x : Segment} {l : List Segment} (hx : 0 < x.dur) (h : Maximal l) :
    Maximal (joinSegment x l) := by
  obtain ⟨hpos, hchain⟩ := h
  cases l with
  | nil => exact ⟨by simpa [Machine.joinSegment] using hx, .singleton _⟩
  | cons y l =>
    by_cases hl : x.level = y.level
    · rw [joinSegment_cons_same hl]
      obtain ⟨hy, hpos⟩ := List.forall_mem_cons.mp hpos
      refine ⟨List.forall_mem_cons.mpr ⟨add_pos hx hy, hpos⟩, ?_⟩
      rw [List.isChain_cons] at hchain ⊢
      simpa only [hl] using hchain
    · rw [joinSegment_cons_other hl]
      exact ⟨List.forall_mem_cons.mpr ⟨hx, hpos⟩, List.isChain_cons_cons.mpr ⟨hl, hchain⟩⟩

theorem maximal_mergeSegments (l : List Segment) : Maximal (mergeSegments l) := by
  induction l with
  | nil => exact ⟨by simp, .nil⟩
  | cons x l ih =>
    by_cases hx : 0 < x.dur
    · rw [mergeSegments_cons_of_pos hx]
      exact ih.joinSegment hx
    · rwa [mergeSegments_cons_of_not_pos hx]

/-! ### Tilings -/

/-- The segment has the level of `w` at each of its times. -/
def Segment.Shows (w : Ns → Pin) (x : Segment) : Prop :=
  ∀ τ, x.start ≤ τ → τ < x.start + x.dur → w τ = x.level

/-- The segments follow on one another from `a` to `b` and show the levels of `w`. -/
inductive Tiles (w : Ns → Pin) (b : Ns) : Ns → List Segment → Prop
  | nil : Tiles w b b []
  | cons {x : Segment} {l : List Segment} (hd : 0 ≤ x.dur) (hx : x.Shows w) (hl : Tiles w b (x.start + x.dur) l) :
      Tiles w b x.start (x :: l)

section
variable {w : Ns → Pin} {a b : Ns} {l : List Segment}

/-- Neighbours of one level show it from the start of the first to the end of the second. -/
theorem Segment.Shows.join {x y : Segment} (hx : x.Shows w) (hy : y.Shows w) (hs : y.start = x.start + x.dur)
    (hl : x.level = y.level) : Segment.Shows w ⟨x.level, x.start, x.dur + y.dur⟩ := by
  intro τ h0 h1
  by_cases hτ : τ < x.start + x.dur
  · exact hx τ h0 hτ
  · refine (hy τ (by rw [hs]; exact not_lt.mp hτ) ?_).trans hl.symm
    rw [hs, add_assoc]
    exact h1

theorem Tiles.joinSegment {x : Segment} (hd : 0 ≤ x.dur) (hx : x.Shows w) (h : Tiles w b (x.start + x.dur) l) :
    Tiles w b x.start (joinSegment x l) := by
  generalize hs : x.start + x.dur = m at h
  cases h with
  | nil => exact .cons hd hx (by rw [hs]; exact .nil)
  | @cons y l hyd hy hl =>
    by_cases hlev : x.level = y.level
    · rw [joinSegment_cons_same hlev]
      refine .cons (x := ⟨x.level, x.start, x.dur + y.dur⟩) (add_nonneg hd hyd) (hx.join hy hs.symm hlev) ?_
      rwa [← add_assoc, hs]
    · rw [joinSegment_cons_other hlev]
      exact .cons hd hx (by rw [hs]; exact .cons hyd hy hl)

theorem Tiles.mergeSegments (h : Tiles w b a l) : Tiles w b a (mergeSegments l) := by
  induction h with
  | nil => exact .nil
  | @cons x l hd hx hl ih =>
    by_cases hpos : 0 < x.dur
    · rw [mergeSegments_cons_of_pos hpos]
      exact ih.joinSegment hd hx
    · rw [mergeSegments_cons_of_not_pos hpos]
      have hzero : x.dur = 0 := le_antisymm (not_lt.mp hpos) hd
      rwa [hzero, add_zero] at ih

/-- An interval from `a` to `m` in front of a tiling from `m` on. -/
theorem Tiles.interval {level : Pin} {m : Ns} (hm : a ≤ m) (hx : ∀ τ, a ≤ τ → τ < m → w τ = level) (h : Tiles w b m l) :
    Tiles w b a (⟨level, a, m - a⟩ :: l) := by
  have hstop : a + (m - a) = m := add_sub_cancel a m
  refine .cons (x := ⟨level, a, m - a⟩) (sub_nonneg.mpr hm) (fun τ h0 h1 => hx τ h0 ?_) ?_
  · rwa [← hstop]
  · rwa [← hstop] at h

theorem Tiles.sum_dur (h : Tiles w b a l) : (l.map Segment.dur).sum = b - a := by
  induction h with
  | nil => simp
  | cons hd hx hl ih =>
    rw [List.map_cons, List.sum_cons, ih]
    ring

theorem Tiles.start_head (h : Tiles w b a l) {x : Segment} (hx : l.head? = some x) : x.start = a := by
  cases h with
  | nil => cases hx
  | cons => cases hx; rfl

theorem Tiles.contiguous (h : Tiles w b a l) : l.IsChain fun x y => y.start = x.start + x.dur := by
  induction h with
  | nil => exact .nil
  | cons hd hx hl ih => exact List.isChain_cons.mpr ⟨fun y hy => hl.start_head hy, ih⟩

theorem Tiles.le (h : Tiles w b a l) : a ≤ b := by
  induction h with
  | nil => exact le_rfl
  | cons hd hx hl ih => exact (le_add_of_nonneg_right hd).trans ih

theorem Tiles.mem (h : Tiles w b a l) {x : Segment} (hx : x ∈ l) : a ≤ x.start ∧ x.start + x.dur ≤ b ∧ x.Shows w := by
  induction h with
  | nil => cases hx
  | cons hd hy hl ih =>
    rcases List.mem_cons.mp hx with rfl | hx
    · exact ⟨le_rfl, hl.le, hy⟩
    · obtain ⟨h1, h2⟩ := ih hx
      exact ⟨(le_add_of_nonneg_right hd).trans h1, h2⟩

end

/-! ### The intervals between the events -/

section
variable {tr : List PinEvent} {tEnd : Ns}

/-- An event's interval ends with the next event, or with the run (R138). -/
theorem drivenIntervals_cons (e : PinEvent) (tr : List PinEvent) (tEnd : Ns) :
    drivenIntervals tEnd (e :: tr) =
      ⟨e.level.toPin, e.time, firstEventTime tr tEnd - e.time⟩ :: drivenIntervals tEnd tr := by
  cases tr <;> rfl

theorem le_firstEventTime {a : Ns} (h : ∀ e ∈ tr, a ≤ e.time) (hend : a ≤ tEnd) : a ≤ firstEventTime tr tEnd := by
  cases tr with
  | nil => exact hend
  | cons e rest => exact h e List.mem_cons_self

theorem firstEventTime_le (hs : tr.Pairwise fun e f => e.time ≤ f.time) {e : PinEvent} (he : e ∈ tr) :
    firstEventTime tr tEnd ≤ e.time := by
  cases tr with
  | nil => cases he
  | cons f rest =>
    rcases List.mem_cons.mp he with rfl | he
    · exact le_rfl
    · exact (List.pairwise_cons.mp hs).1 e he

/-- From each event to the next the trace has that event's level (R138), whatever came before. -/
theorem tiles_drivenIntervals (before : Pin) (pre : List PinEvent) (hs : tr.Pairwise fun e f => e.time ≤ f.time)
    (hend : ∀ e ∈ tr, e.time ≤ tEnd) :
    Tiles (levelAfter before (pre ++ tr)) tEnd (firstEventTime tr tEnd) (drivenIntervals tEnd tr) := by
  induction tr generalizing pre with
  | nil => exact .nil
  | cons e rest ih =>
    obtain ⟨he, hrest⟩ := List.pairwise_cons.mp hs
    obtain ⟨hee, hrend⟩ := List.forall_mem_cons.mp hend
    have htail := ih (pre ++ [e]) hrest hrend
    rw [← List.append_cons] at htail
    rw [drivenIntervals_cons]
    exact htail.interval (le_firstEventTime he hee) fun τ h0 h1 =>
      levelAfter_last before h0 fun f hf => h1.trans_le (firstEventTime_le hrest hf)

/-- The time before the first event is one interval at the level before it. -/
theorem tiles_segments (before : Pin) (hs : tr.Pairwise fun e f => e.time ≤ f.time)
    (hend : ∀ e ∈ tr, 0 ≤ e.time ∧ e.time ≤ tEnd) (h0 : 0 ≤ tEnd) :
    Tiles (levelAfter before tr) tEnd 0 (segments before tr tEnd) := by
  have hdriven := tiles_drivenIntervals before [] hs fun e he => (hend e he).2
  have htiles := hdriven.interval (le_firstEventTime (fun e he => (hend e he).1) h0) fun τ _ h1 =>
    levelAfter_future before tr τ fun e he => h1.trans_le (firstEventTime_le hs he)
  rw [sub_zero] at htiles
  exact htiles.mergeSegments

theorem tiles_drivenSegments (hs : tr.Pairwise fun e f => e.time ≤ f.time) (hend : ∀ e ∈ tr, e.time ≤ tEnd) :
    Tiles (levelAfter .unknown tr) tEnd (firstEventTime tr tEnd) (drivenSegments tr tEnd) :=
  (tiles_drivenIntervals .unknown [] hs hend).mergeSegments

/-- A tile's times lie within the run, and the trace has the tile's level there. -/
theorem Tiles.level_at {before : Pin} {a τ : Ns} {l : List Segment} {x : Segment}
    (h : Tiles (levelAfter before tr) tEnd a l) (ha : 0 ≤ a) (hx : x ∈ l) (h0 : x.start ≤ τ)
    (h1 : τ < x.start + x.dur) : 0 ≤ τ ∧ τ ≤ tEnd ∧ levelAfter before tr τ = x.level := by
  obtain ⟨hstart, hstop, hshow⟩ := h.mem hx
  exact ⟨(ha.trans hstart).trans h0, (h1.trans_le hstop).le, hshow τ h0 h1⟩

theorem Tiles.waveAt {a τ : Ns} {l : List Segment} {x : Segment} (h : Tiles (levelAfter .unknown tr) tEnd a l)
    (ha : 0 ≤ a) (hx : x ∈ l) (h0 : x.start ≤ τ) (h1 : τ < x.start + x.dur) : waveAt tr tEnd τ = some x.level := by
  obtain ⟨hlo, hhi, hlevel⟩ := h.level_at ha hx h0 h1
  rw [waveAt_eq hlo hhi, hlevel]

theorem Tiles.waveDrawnAt {d : Level} {a τ : Ns} {l : List Segment} {x : Segment}
    (h : Tiles (levelAfter d.toPin tr) tEnd a l) (ha : 0 ≤ a) (hx : x ∈ l) (h0 : x.start ≤ τ)
    (h1 : τ < x.start + x.dur) : waveDrawnAt d tr tEnd τ = some x.level := by
  obtain ⟨hlo, hhi, hlevel⟩ := h.level_at ha hx h0 h1
  exact (if_pos ⟨hlo, hhi⟩).trans (congrArg some hlevel)

end

/-- Settles O54: both lists come from merging, and the intervals between the events tile the time they are measured over. -/
theorem segmentsAreMaximal : Obligations.SegmentsAreMaximal := by
  refine ⟨fun _ _ _ => maximal_mergeSegments _, fun before tr tEnd hs hend h0 => ?_, fun _ _ => maximal_mergeSegments _,
    fun tr tEnd hs hend => ?_⟩
  · have ht (l : Pin) := tiles_segments l hs hend h0
    exact ⟨(ht before).sum_dur.trans (sub_zero _), fun _ hx => (ht before).start_head hx, (ht before).contiguous,
      fun _ hx _ => (ht .unknown).waveAt le_rfl hx, fun d _ hx _ => (ht d.toPin).waveDrawnAt le_rfl hx⟩
  · have ht := tiles_drivenSegments hs hend
    refine ⟨ht.sum_dur, fun _ hx => ht.start_head hx, ht.contiguous, fun hpos x hx τ h0 h1 => ?_⟩
    cases tr with
    | nil => cases hx
    | cons e rest => exact ht.waveAt (hpos e List.mem_cons_self) hx h0 h1

end Sys2Proof.Machine
end

section
/-!
PROOFS. What the reference wire decoder reads of a frame (44_wire_protocol.md R141 to R146): a first latch, pulses that each
decode as a bit, and the latch that closes them.
-/
namespace Sys2Proof.Machine

/-! ### Segments that decode as bits -/

/-- A first latch, then pulses that decode as `bits`, none of whose lows is a latch. -/
inductive Received (tolRx : Ns) : List Bool → List Segment → Prop
  | latch {x : Segment} (hx : x.isLatch = true) : Received tolRx [] [x]
  | pulse {bits : List Bool} {l : List Segment} {x y : Segment} {b : Bool} (h : Received tolRx bits l)
      (hx : x.level = .high) (hy : y.level = .low) (hxd : 0 < x.dur) (hyd : 0 < y.dur)
      (hb : classifyPulse tolRx x.dur y.dur = some b) (hl : y.isLatch = false) :
      Received tolRx (bits ++ [b]) (l ++ [x, y])

theorem Segment.isLatch_iff (x : Segment) : x.isLatch = true ↔ x.level = .low ∧ 300000 ≤ x.dur := by
  rw [Segment.isLatch, isLatchLow, Bool.and_eq_true, decide_eq_true_eq, decide_eq_true_eq]
  rfl

section
variable {tolRx : Ns} {bits : List Bool} {l : List Segment}

/-- The last of the segments is the low of the last pulse, or the latch. -/
theorem Received.level_last (h : Received tolRx bits l) : ∃ x : Segment, l.getLast? = some x ∧ x.level = .low := by
  cases h with
  | latch hx => exact ⟨_, rfl, ((Segment.isLatch_iff _).mp hx).1⟩
  | pulse h hx hy => exact ⟨_, by simp, hy⟩

theorem Maximal.append_pulse {x y : Segment} (h : Maximal l) (hlast : ∃ z, l.getLast? = some z ∧ z.level = .low)
    (hx : x.level = .high) (hy : y.level = .low) (hxd : 0 < x.dur) (hyd : 0 < y.dur) : Maximal (l ++ [x, y]) := by
  obtain ⟨hpos, hchain⟩ := h
  obtain ⟨z, hz, hzl⟩ := hlast
  refine ⟨List.forall_mem_append.mpr ⟨hpos, by simp [hxd, hyd]⟩, ?_⟩
  simp [List.isChain_append, hchain, hx, hy, hz, hzl]

theorem Received.maximal (h : Received tolRx bits l) : Maximal l := by
  induction h with
  | latch hx =>
    have hd : (0 : Ns) < 300000 := by norm_num
    exact ⟨by simpa using hd.trans_le ((Segment.isLatch_iff _).mp hx).2, .singleton _⟩
  | pulse h hx hy hxd hyd _ _ ih => exact ih.append_pulse h.level_last hx hy hxd hyd

/-- Maximal segments are merged already. -/
theorem Maximal.mergeSegments (h : Maximal l) : mergeSegments l = l := by
  induction l with
  | nil => rfl
  | cons x l ih =>
    obtain ⟨hpos, hchain⟩ := h
    obtain ⟨hx, hpos⟩ := List.forall_mem_cons.mp hpos
    rw [List.isChain_cons] at hchain
    rw [mergeSegments_cons_of_pos hx, ih ⟨hpos, hchain.2⟩]
    cases l with
    | nil => rfl
    | cons y l => exact joinSegment_cons_other (hchain.1 y rfl) l

/-- After the first latch the walk appends the pulses' bits one by one (R144, R146). -/
theorem Received.walk (h : Received tolRx bits l) (rest : List Segment) :
    walkSegments tolRx [] [] (afterFirstLatch (l ++ rest)) = walkSegments tolRx [] bits rest := by
  induction h generalizing rest with
  | latch hx => simp [afterFirstLatch, hx]
  | pulse h hx hy hxd hyd hb hl ih => rw [List.append_assoc, ih, ← walkSegments_pulse hx hy hb hl]; rfl

/-- A pulse keeps its bit where its low goes on into a latch (R141, R142). -/
theorem classifyPulse_of_latch {h d d' : Ns} {b : Bool} (ht : tolRx < 200) (hb : classifyPulse tolRx h d = some b)
    (hd : 300000 ≤ d') : classifyPulse tolRx h d' = some b := by
  rw [classifyPulse_eq] at hb ⊢
  by_cases h1 : |h - 800| ≤ tolRx
  · have h0 : ¬|h - 400| ≤ tolRx := not_both_classes ht h1
    simp only [h1, h0, hd, or_true, true_and, false_and, if_true, if_false] at hb ⊢
    split_ifs at hb
    exact hb
  · simp only [h1, hd, or_true, and_true, false_and, if_false] at hb ⊢
    split_ifs at hb with h0
    rw [if_pos h0.1]
    exact hb

end

/-! ### A trace that decodes as bits -/

theorem firstEventTime_append (tr : List PinEvent) (e : PinEvent) (tEnd : Ns) :
    firstEventTime (tr ++ [e]) tEnd = firstEventTime tr e.time := by
  cases tr <;> rfl

/-- A further event ends the intervals before it, and its own goes on to the end of the run (R138). -/
theorem drivenIntervals_append (tr : List PinEvent) (e : PinEvent) (tEnd : Ns) :
    drivenIntervals tEnd (tr ++ [e]) = drivenIntervals e.time tr ++ [⟨e.level.toPin, e.time, tEnd - e.time⟩] := by
  induction tr with
  | nil => rfl
  | cons f tr ih => rw [List.cons_append, drivenIntervals_cons, drivenIntervals_cons, ih, firstEventTime_append]; rfl

theorem mergeSegments_append_congr (l : List Segment) {m n : List Segment} (h : mergeSegments m = mergeSegments n) :
    mergeSegments (l ++ m) = mergeSegments (l ++ n) := by
  induction l with
  | nil => exact h
  | cons x l ih =>
    by_cases hx : 0 < x.dur
    · rw [List.cons_append, List.cons_append, mergeSegments_cons_of_pos hx, mergeSegments_cons_of_pos hx, ih]
    · rw [List.cons_append, List.cons_append, mergeSegments_cons_of_not_pos hx, mergeSegments_cons_of_not_pos hx, ih]

/-- Two intervals of one level are one segment (R139). -/
theorem mergeSegments_pair {x y : Segment} (hx : 0 < x.dur) (hy : 0 < y.dur) (hl : x.level = y.level) :
    mergeSegments [x, y] = mergeSegments [⟨x.level, x.start, x.dur + y.dur⟩] := by
  have hxy : 0 < x.dur + y.dur := add_pos hx hy
  simp [mergeSegments, hx, hy, hxy, joinSegment, hl]

/-- A frame's bits are a multiple of 24 and read back as its words (R143 d, R144, R145). -/
theorem closeFrame_words {ws : List ColourWord} (h : ws ≠ []) : closeFrame [] (ws.flatMap sequenceOf) = some [ws] := by
  have hlen : (ws.flatMap sequenceOf).length = ws.length * 24 := by simp [List.length_flatMap]
  have hpos : 0 < ws.length := List.length_pos_of_ne_nil h
  have hne : ws.flatMap sequenceOf ≠ [] := List.ne_nil_of_length_pos (by omega)
  rw [closeFrame, if_neg hne, if_pos (by omega), hlen, Nat.mul_div_cancel _ (by decide), colourWordsReadBack]
  rfl

section
variable {tolRx : Ns} {bits : List Bool} {tr : List PinEvent}

/-- A rise at `r` and a fall at `f` add a pulse, whose low lasts until `τ`. -/
theorem Received.rise_fall {r f τ : Ns} {b : Bool} (h : Received tolRx bits (drivenIntervals r tr)) (hrf : 0 < f - r)
    (hf : 0 < τ - f) (hl : τ - f < 300000) (hb : classifyPulse tolRx (f - r) (τ - f) = some b) :
    Received tolRx (bits ++ [b]) (drivenIntervals τ (tr ++ [⟨r, .high⟩, ⟨f, .low⟩])) := by
  have hlatch : Segment.isLatch ⟨.low, f, τ - f⟩ = false := by
    rw [Bool.eq_false_iff, ne_eq, Segment.isLatch_iff]
    exact fun hx => absurd hx.2 (not_le.mpr hl)
  have hs : drivenIntervals τ (tr ++ [⟨r, .high⟩, ⟨f, .low⟩]) =
      drivenIntervals r tr ++ [⟨.high, r, f - r⟩, ⟨.low, f, τ - f⟩] := by
    rw [List.append_cons, drivenIntervals_append, drivenIntervals_append, List.append_assoc]
    rfl
  rw [hs]
  exact h.pulse rfl rfl hrf hf hb hlatch

/-- A drive to low during the last pulse's low adds no segment (R139): the low goes on to the end of the run, as a latch
that the pulse ends with (R141). -/
theorem Received.last_low {τ m tEnd : Ns} (ht : tolRx < 200) (h : Received tolRx bits (drivenIntervals τ tr))
    (hne : bits ≠ []) (hm : τ ≤ m) (hend : 300000 ≤ tEnd - m) :
    ∃ (bits' : List Bool) (b : Bool) (l : List Segment) (x y : Segment), bits = bits' ++ [b] ∧
      drivenSegments (tr ++ [⟨m, .low⟩]) tEnd = l ++ [x, y] ∧ Received tolRx bits' l ∧ x.level = .high ∧
      y.isLatch = true ∧ classifyPulse tolRx x.dur y.dur = some b := by
  generalize hs : drivenIntervals τ tr = s at h
  cases h with
  | latch => exact absurd rfl hne
  | @pulse bits' l x y b h hx hy hxd hyd hb hl =>
    obtain rfl | ⟨pre, e, rfl⟩ := tr.eq_nil_or_concat'
    · simp [drivenIntervals] at hs
    rw [drivenIntervals_append, List.append_cons l x] at hs
    obtain ⟨hpre, hlast⟩ := List.append_inj' hs rfl
    cases hlast
    have he : e.level.toPin = .low := hy
    have hd : 0 < m - e.time := lt_of_lt_of_le hyd (by linarith)
    have hlow : 300000 ≤ m - e.time + (tEnd - m) := by linarith
    refine ⟨bits', b, l, x, ⟨.low, e.time, m - e.time + (tEnd - m)⟩, rfl, ?_, h, hx,
      (Segment.isLatch_iff _).mpr ⟨rfl, hlow⟩, classifyPulse_of_latch ht hb hlow⟩
    have hmax : Maximal (l ++ [x, ⟨.low, e.time, m - e.time + (tEnd - m)⟩]) :=
      h.maximal.append_pulse h.level_last hx rfl hxd (lt_of_lt_of_le (by norm_num) hlow)
    have hpair := mergeSegments_pair (x := ⟨.low, e.time, m - e.time⟩) (y := ⟨.low, m, tEnd - m⟩) hd
      (lt_of_lt_of_le (by norm_num) hend) rfl
    rw [drivenSegments, drivenIntervals_append, drivenIntervals_append, hpre, he, List.append_assoc]
    refine (mergeSegments_append_congr _ hpair).trans ?_
    rw [List.append_assoc]
    exact hmax.mergeSegments

/-- The frame that a last drive to low and a hold of 300 000 ns close decodes as its words (R144, R145). -/
theorem Received.decodeWire {ws : List ColourWord} {τ m tEnd : Ns} (ht : tolRx < 200)
    (h : Received tolRx (ws.flatMap sequenceOf) (drivenIntervals τ tr)) (hne : ws ≠ []) (hm : τ ≤ m)
    (hend : 300000 ≤ tEnd - m) : decodeWire tolRx (tr ++ [⟨m, .low⟩]) tEnd = .decoded [ws] [] := by
  have hclose := closeFrame_words hne
  have hbits : ws.flatMap sequenceOf ≠ [] := fun h0 => by simp [h0, closeFrame] at hclose
  obtain ⟨bits, b, l, x, y, hb, hs, hr, hx, hlatch, hbit⟩ := h.last_low ht hbits hm hend
  have hy : y.level = .low := ((Segment.isLatch_iff y).mp hlatch).1
  have hhigh : endsHigh (l ++ [x, y]) = false := by simp [endsHigh, hy]
  rw [hb] at hclose
  simp only [Machine.decodeWire, hs, hhigh, Bool.false_eq_true, if_false]
  rw [hr.walk, walkSegments_last_pulse hx hy hbit hlatch hclose, walkSegments]

end

end Sys2Proof.Machine
end

section
/-!
PROOFS. The run of R149: HOST issues `NEW`, `END_FRAME`, the `WRITE`s and `END_FRAME` with a gap before each, and the trace
that each command leaves goes on decoding as the bits sent so far (44_wire_protocol.md R149; 43_writer_engine.md R115; R178).
-/
namespace Sys2Proof.Machine

/-! ### A pulse is a bit on the wire -/

/-- The low phase of either pulse with a gap `g` after it is within the receivers' tolerance (R149, R178). -/
structure ToleratesGap (p : Params) (g : Ns) : Prop where
  nonneg : 0 ≤ g
  shortLow : p.dDrv + p.short.tol + p.trim.tol + g ≤ p.tolRx
  longLow : p.dDrv + p.long.tol + p.trim.tol + g ≤ p.tolRx

section
variable {p : Params} {g : Ns}

theorem ToleratesGap.zero (h : ToleratesGap p g) : ToleratesGap p 0 :=
  ⟨le_rfl, (add_le_add_right h.nonneg _).trans h.shortLow, (add_le_add_right h.nonneg _).trans h.longLow⟩

theorem long_bounds (p : Params) (n : Nat) : 800 - p.long.tol ≤ p.long.draw n ∧ p.long.draw n ≤ 800 + p.long.tol :=
  ⟨p.long.draw_ge n, p.long.draw_le n⟩

theorem short_bounds (p : Params) (n : Nat) : 400 - p.short.tol ≤ p.short.draw n ∧ p.short.draw n ≤ 400 + p.short.tol :=
  ⟨p.short.draw_ge n, p.short.draw_le n⟩

theorem trim_bounds (p : Params) (n : Nat) : 50 - p.trim.tol ≤ p.trim.draw n ∧ p.trim.draw n ≤ 50 + p.trim.tol :=
  ⟨p.trim.draw_ge n, p.trim.draw_le n⟩

/-- The high phase of a pulse is that of its bit (R106 to R108, R142). -/
theorem high_tolerated (h : ToleratesGap p g) (b : Bool) (n : Nat) :
    |p.dDrv + highTime p b n - (if b then 800 else 400)| ≤ p.tolRx := by
  obtain ⟨hg, hs, hl⟩ := h
  have hdrv := p.dDrv_nonneg
  have htrim := p.trim.tol_nonneg
  rw [abs_le]
  cases b with
  | false =>
    obtain ⟨hlo, hhi⟩ := short_bounds p n
    simp only [highTime, Bool.false_eq_true, if_false]
    constructor <;> linarith
  | true =>
    obtain ⟨hlo, hhi⟩ := long_bounds p n
    simp only [highTime, if_true]
    constructor <;> linarith

/-- The low phase of a pulse with a tolerated gap after it is that of its bit. -/
theorem low_tolerated (h : ToleratesGap p g) (b : Bool) (m n : Nat) :
    |p.dDrv + lowTime p b m + p.trim.draw n + g - (if b then 450 else 850)| ≤ p.tolRx := by
  obtain ⟨hg, hs, hl⟩ := h
  have hdrv := p.dDrv_nonneg
  obtain ⟨htlo, hthi⟩ := trim_bounds p n
  rw [abs_le]
  cases b with
  | false =>
    obtain ⟨hlo, hhi⟩ := long_bounds p m
    simp only [lowTime, Bool.false_eq_true, if_false]
    constructor <;> linarith
  | true =>
    obtain ⟨hlo, hhi⟩ := short_bounds p m
    simp only [lowTime, if_true]
    constructor <;> linarith

theorem classifyPulse_of_tolerated {tolRx h l : Ns} {b : Bool} (ht : tolRx < 200)
    (hh : |h - (if b then 800 else 400)| ≤ tolRx) (hl : |l - (if b then 450 else 850)| ≤ tolRx) :
    classifyPulse tolRx h l = some b := by
  rw [classifyPulse_eq]
  cases b with
  | true => exact if_pos ⟨hh, .inl hl⟩
  | false =>
    have h1 : ¬|h - 800| ≤ tolRx := fun h1 => not_both_classes ht h1 hh
    rw [if_neg fun hc => h1 hc.1, if_pos ⟨hh, .inl hl⟩]

end

section
variable {p : Params} {s : State} {bits : List Bool} {g : Ns}

/-- A pulse that starts where the bits before it end adds its bit, with any tolerated gap after it. -/
theorem State.afterPulse_received (hr : Received p.tolRx bits (drivenIntervals s.t s.trace)) (hg : ToleratesGap p g) :
    Received p.tolRx (bits ++ [s.bit]) (drivenIntervals ((s.afterPulse p).t + g) (s.afterPulse p).trace) := by
  have hhigh := high_tolerated hg s.bit s.draws
  have hlow := low_tolerated hg s.bit (s.draws + 1) (s.draws + 2)
  have hbit := classifyPulse_of_tolerated p.tolRx_lt hhigh hlow
  have hdrv := p.dDrv_nonneg
  have hrise : s.t + p.dDrv + highTime p s.bit s.draws - s.t = p.dDrv + highTime p s.bit s.draws := by ring
  have hfall : (s.afterPulse p).t + g - (s.t + p.dDrv + highTime p s.bit s.draws) =
      p.dDrv + lowTime p s.bit (s.draws + 1) + p.trim.draw (s.draws + 2) + g := by
    simp only [State.afterPulse]
    ring
  refine hr.rise_fall ?_ ?_ ?_ ?_
  · rw [hrise]
    exact add_pos_of_nonneg_of_pos hdrv (highTime_pos ..)
  · rw [hfall]
    linarith [lowTime_pos p s.bit (s.draws + 1), p.trim.draw_pos (s.draws + 2), hg.nonneg]
  · have hle := (abs_le.mp hlow).2
    have hnom : (if s.bit then 450 else 850 : Ns) ≤ 850 := by split <;> norm_num
    rw [hfall]
    linarith [p.tolRx_lt]
  · rwa [hrise, hfall]

theorem State.afterPulses_received (hr : Received p.tolRx bits (drivenIntervals s.t s.trace)) (h0 : ToleratesGap p 0)
    (hb : s.bitIdx = 0) {k : Nat} (hk : k ≤ 24) :
    Received p.tolRx (bits ++ (List.range k).map s.seq.getLsbD)
      (drivenIntervals (s.afterPulses p k).t (s.afterPulses p k).trace) := by
  induction k with
  | zero => simpa [State.afterPulses] using hr
  | succ k ih =>
    have hlast := State.afterPulse_received (ih (by omega)) h0
    rw [add_zero, State.afterPulses_bit hb (by omega)] at hlast
    rw [State.afterPulses_succ, List.range_succ, List.map_append, ← List.append_assoc]
    exact hlast

/-- The 24 pulses of a `WRITE` add its sequence, with any tolerated gap after the last. -/
theorem State.afterPulses_received_all (hr : Received p.tolRx bits (drivenIntervals s.t s.trace)) (hg : ToleratesGap p g)
    (hb : s.bitIdx = 0) :
    Received p.tolRx (bits ++ sequenceOf s.seq)
      (drivenIntervals ((s.afterPulses p 24).t + g) (s.afterPulses p 24).trace) := by
  have hlast := State.afterPulse_received (State.afterPulses_received hr hg.zero hb (k := 23) (by decide)) hg
  rw [State.afterPulses_bit hb (by decide), List.append_assoc, ← List.map_singleton, ← List.map_append,
    ← List.range_succ] at hlast
  rw [State.afterPulses_succ]
  exact hlast

end

/-! ### HOST's commands, each after a gap -/

/-- Some number of steps leads from `s` to `u`. -/
def Leads (p : Params) (s u : State) : Prop := ∃ k, runOn p k s = .next u

section
variable {p : Params} {s u v : State}

theorem Leads.step (h : stepOn p s = .next u) : Leads p s u := ⟨1, runOn_succ_of_next h⟩

theorem Leads.trans (h : Leads p s u) (h' : Leads p u v) : Leads p s v := by
  obtain ⟨j, hj⟩ := h
  obtain ⟨k, hk⟩ := h'
  exact ⟨j + k, (runOn_add p j k s u hj).trans hk⟩

end

/-- HOST's coming moves: a gap before each command, and `d` after the last. With nothing scheduled every gap is 0 (log
entry 6). -/
inductive HostMoves (d : Ns) (gaps : List Ns) : List Move → Prop
  | default (hgaps : ∀ g ∈ gaps, g = 0) (hd : d = 0) : HostMoves d gaps []
  | scheduled (hgaps : ∀ g ∈ gaps, 0 ≤ g) (hd : 0 ≤ d) :
      HostMoves d gaps (gaps.flatMap (fun g => [Move.gap g, .issue]) ++ [.gap d])

section
variable {p : Params} {s u : State} {d g : Ns} {gs : List Ns}

theorem HostMoves.undisturbed {moves : List Move} (h : HostMoves d gs moves) (hs : s.schedule = moves) :
    s.undisturbed = true := by
  rw [State.undisturbed, hs]
  cases h with
  | default => rfl
  | scheduled hgaps hd =>
    cases gs with
    | nil => exact decide_eq_true hd
    | cons g gs => exact decide_eq_true (hgaps g List.mem_cons_self)

theorem issueWord_encode {i : Instr} (ha : s.accepting = true) (hi : i.isCommand = true) :
    issueWord (execOn p) (encode i) s = execOn p i s := by
  have hf : s.engState ≠ .faulted := by rcases s.accepting_iff.mp ha with h | h <;> simp [h]
  simp [issueWord, hf, portCommand_ok.mpr ⟨decode_encode i, hi⟩]

theorem nextWord_of_drop {w : Word} {ws : List Word} (h : s.stream.drop s.hostIdx = w :: ws) : s.nextWord = some w := by
  rw [State.nextWord, ← List.head?_drop, h]
  rfl

theorem issueStep_encode {i : Instr} {ws : List Word} (ha : s.accepting = true)
    (hw : s.stream.drop s.hostIdx = encode i :: ws) (hi : i.isCommand = true) :
    issueStep (execOn p) s = execOn p i s :=
  (issueStep_of_nextWord (nextWord_of_drop hw)).trans (issueWord_encode ha hi)

/-- A scheduled gap and the issue after it (R115). -/
theorem leads_gap_issue {i : Instr} {ws : List Word} {rest : List Move} (hs : s.schedule = .gap g :: .issue :: rest)
    (hg : 0 ≤ g) (ha : s.accepting = true) (hw : s.stream.drop s.hostIdx = encode i :: ws) (hi : i.isCommand = true)
    (h : execOn p i { s with t := s.t + g, schedule := rest } = .next u) : Leads p s u := by
  have hr : s.running = false := State.running_of_accepting ha
  have hr' : State.running { s with t := s.t + g, schedule := .issue :: rest } = false := hr
  have hissue := issueStep_encode (p := p) (s := { s with t := s.t + g, schedule := rest }) ha hw hi
  exact (Leads.step (machineStep_of_gap hr hs hg)).trans (.step ((machineStep_of_issue hr' rfl).trans (hissue.trans h)))

/-- HOST waits for its gap and issues its next command (R115). -/
theorem exists_issue {i : Instr} {ws : List Word} (hm : HostMoves d (g :: gs) s.schedule) (ha : s.accepting = true)
    (hw : s.stream.drop s.hostIdx = encode i :: ws) (hi : i.isCommand = true) :
    0 ≤ g ∧ ∃ rest, HostMoves d gs rest ∧
      ∀ u, execOn p i { s with t := s.t + g, schedule := rest } = .next u → Leads p s u := by
  generalize hs : s.schedule = moves at hm
  cases hm with
  | default hgaps hd =>
    obtain ⟨rfl, hgs⟩ := List.forall_mem_cons.mp hgaps
    refine ⟨le_rfl, [], .default hgs hd, fun u hu => .step ?_⟩
    rw [add_zero, ← hs] at hu
    exact (machineStep_of_no_move (State.running_of_accepting ha) hs).trans ((issueStep_encode ha hw hi).trans hu)
  | scheduled hgaps hd =>
    obtain ⟨hg, hgs⟩ := List.forall_mem_cons.mp hgaps
    exact ⟨hg, _, .scheduled hgs hd, fun u hu => leads_gap_issue hs hg ha hw hi hu⟩

/-- HOST's last gap, after which nothing is scheduled. -/
theorem leads_last_gap (hm : HostMoves d [] s.schedule) (hr : s.running = false) :
    0 ≤ d ∧ Leads p s { s with t := s.t + d, schedule := [] } := by
  generalize hs : s.schedule = moves at hm
  cases hm with
  | default hgaps hd =>
    subst hd
    refine ⟨le_rfl, 0, ?_⟩
    rw [add_zero, ← hs]
    rfl
  | scheduled hgaps hd => exact ⟨hd, .step (machineStep_of_gap hr hs hd)⟩

end

/-- Between two commands of a good run (R134): ENGINE is bound and idle, HOST has the words `ws` to issue, with the gaps
`gs` before them and `d` after. -/
structure State.Waiting (q : Policy) (ws : List Word) (d : Ns) (gs : List Ns) (s : State) : Prop where
  idle : s.engState = .idle
  bound : s.bound = true
  policy : s.policy = some q
  faultCode : s.faultCode = .noFault
  tv : s.tv = false
  words : s.stream.drop s.hostIdx = ws
  moves : HostMoves d gs s.schedule

theorem State.Waiting.accepting {q : Policy} {ws : List Word} {d : Ns} {gs : List Ns} {s : State}
    (h : s.Waiting q ws d gs) : s.accepting = true :=
  s.accepting_iff.mpr (.inr h.idle)

section
variable {p : Params} {q : Policy} {s : State} {w : Word} {ws : List Word} {d g : Ns} {gs : List Ns}

theorem drop_succ_of_drop (h : s.stream.drop s.hostIdx = w :: ws) : s.stream.drop (s.hostIdx + 1) = ws := by
  rw [← List.tail_drop, h]
  rfl

/-- `NEW` after reset (R116). -/
theorem leads_new {pol : BitVec 2} {moves : List Move} (hq : policyOf p.hasExtraPolicies pol = some q)
    (hm : HostMoves d (g :: gs) moves) :
    ∃ u, Leads p (State.withProgram (encode (.new pol) :: ws) moves) u ∧ u.Waiting q ws d gs ∧ u.trace = [] := by
  obtain ⟨-, rest, hrest, hlead⟩ := exists_issue (p := p) (s := State.withProgram (encode (.new pol) :: ws) moves)
    hm rfl rfl rfl
  exact ⟨_, hlead _ (newOn_of_accepting rfl rfl hq), ⟨rfl, rfl, rfl, rfl, rfl, rfl, hrest⟩, rfl⟩

/-- What `END_FRAME` leaves (R120): the pin driven low, and the latch held. -/
theorem leads_endFrame (h : s.Waiting q (encode .endFrame :: ws) d (g :: gs)) :
    0 ≤ g ∧ ∃ u, Leads p s u ∧ u.Waiting q ws d gs ∧ u.trace = s.trace ++ [⟨s.t + g, .low⟩] ∧
      u.t = s.t + g + p.dDrv + p.dLatch := by
  obtain ⟨hg, rest, hrest, hlead⟩ := exists_issue (p := p) h.moves h.accepting h.words rfl
  have hstart := hlead _ (endFrameOn_of_bound h.accepting h.bound)
  exact ⟨hg, _, hstart.trans ⟨2, runOn_latch rfl rfl (hrest.undisturbed rfl)⟩,
    ⟨rfl, h.bound, h.policy, h.faultCode, h.tv, drop_succ_of_drop h.words, hrest⟩, rfl, rfl⟩

/-- From a `WRITE`'s acceptance in `v` its 24 pulses leave HOST as it was and ENGINE idle, and add the sequence to the bits
on the wire, with any tolerated gap after it (R118, R119). -/
theorem Leads.pulses {v : State} {bits : List Bool} (h : Leads p s v) (he : v.engState = .emitting) (hb : v.bitIdx = 0)
    (hp : v.phase = 0) (hbound : v.bound = true) (hpolicy : v.policy = some q) (hfault : v.faultCode = .noFault)
    (htv : v.tv = false) (hwords : v.stream.drop v.hostIdx = ws) (hmoves : HostMoves d gs v.schedule)
    (hr : Received p.tolRx bits (drivenIntervals v.t v.trace)) :
    ∃ u, Leads p s u ∧ u.Waiting q ws d gs ∧ ∀ g', ToleratesGap p g' →
      Received p.tolRx (bits ++ sequenceOf v.seq) (drivenIntervals (u.t + g') u.trace) := by
  have hpulsing : v.Pulsing := ⟨he, by simp [hb], hmoves.undisturbed rfl⟩
  obtain ⟨hidx, hstream, hfault', htv', hbound', hpolicy'⟩ := State.afterPulses_frame (p := p) (s := v) 24
  refine ⟨_, h.trans ⟨_, runOn_pulses hpulsing hb hp le_rfl⟩, ?_, fun g' hg' => State.afterPulses_received_all hr hg' hb⟩
  exact ⟨(State.afterPulses_last hb).1, hbound'.trans hbound, hpolicy'.trans hpolicy, hfault'.trans hfault,
    htv'.trans htv, by rw [hidx, hstream, hwords], by rwa [State.afterPulses_schedule]⟩

/-- `WRITE` adds its colour's sequence to the bits on the wire (R117). -/
theorem leads_write {c : Colour} {bits : List Bool} (h : s.Waiting q (encode (.write c.r c.g c.b) :: ws) d (g :: gs))
    (hr : Received p.tolRx bits (drivenIntervals (s.t + g) s.trace)) :
    ∃ u, Leads p s u ∧ u.Waiting q ws d gs ∧ ∀ g', ToleratesGap p g' →
      Received p.tolRx (bits ++ sequenceOf (bitsFor q c)) (drivenIntervals (u.t + g') u.trace) := by
  obtain ⟨-, rest, hrest, hlead⟩ := exists_issue (p := p) h.moves h.accepting h.words rfl
  have hstart := hlead _ (writeOn_of_bound h.accepting h.bound h.policy)
  exact hstart.pulses rfl rfl rfl h.bound h.policy h.faultCode h.tv (drop_succ_of_drop h.words) hrest hr

/-- `WRITE`s add their colours' sequences in order (R124, R145), where the gap after each is tolerated. -/
theorem leads_writes {c : Colour} {cs : List Colour} {bits : List Bool} {h : Nat → Ns}
    (hs : s.Waiting q ((c :: cs).map (fun c => encode (.write c.r c.g c.b)) ++ ws) d
      ((List.range (c :: cs).length).map h ++ gs))
    (hr : Received p.tolRx bits (drivenIntervals (s.t + h 0) s.trace)) (ht : ∀ k, 0 < k → ToleratesGap p (h k)) :
    ∃ u, Leads p s u ∧ u.Waiting q ws d gs ∧ ∀ g', ToleratesGap p g' →
      Received p.tolRx (bits ++ ((c :: cs).map (bitsFor q)).flatMap sequenceOf)
        (drivenIntervals (u.t + g') u.trace) := by
  induction cs generalizing s c bits h with
  | nil => simpa using leads_write hs hr
  | cons c' cs ih =>
    have hgaps : (List.range (c :: c' :: cs).length).map h =
        h 0 :: (List.range (c' :: cs).length).map fun k => h (k + 1) := by
      rw [List.length_cons, List.range_succ_eq_map, List.map_cons, List.map_map]
      rfl
    rw [hgaps] at hs
    obtain ⟨v, hsv, hv, hrv⟩ := leads_write hs hr
    obtain ⟨u, hvu, hu, hru⟩ := ih (h := fun k => h (k + 1)) hv (hrv _ (ht 1 one_pos)) fun k _ => ht _ k.succ_pos
    refine ⟨u, hsv.trans hvu, hu, fun g' hg' => ?_⟩
    rw [List.map_cons, List.flatMap_cons, ← List.append_assoc]
    exact hru g' hg'

/-- The state after the last command and the last gap has ended its run well (R134). -/
theorem State.Waiting.ended (h : s.Waiting q [] d []) :
    0 ≤ d ∧ ∃ u, Leads p s u ∧ u.ended = true ∧ u.schedule = [] ∧ u.good = true ∧ u.engState = .idle ∧
      u.trace = s.trace ∧ u.t = s.t + d := by
  have hr : s.running = false := State.running_of_accepting h.accepting
  have hw : s.nextWord = none := by
    rw [State.nextWord, ← List.head?_drop, h.words]
    rfl
  obtain ⟨hd, hlead⟩ := leads_last_gap (p := p) h.moves hr
  refine ⟨hd, _, hlead, ?_, rfl, ?_, h.idle, rfl, rfl⟩
  · exact Bool.and_eq_true_iff.mpr ⟨Option.isNone_iff_eq_none.mpr hw, congrArg _ hr⟩
  · simp [State.good, h.faultCode, h.tv]

end

/-! ### The whole run -/

/-- The first latch, wherever the run's first gaps put it (R141, R146). -/
theorem received_first_latch {tolRx t τ : Ns} (h : 300000 ≤ τ - t) :
    Received tolRx [] (drivenIntervals τ [⟨t, .low⟩]) :=
  .latch ((Segment.isLatch_iff _).mpr ⟨rfl, h⟩)

/-- The run of R149 with the gaps HOST leaves: command by command its trace goes on decoding as the bits sent so far, and
the last `END_FRAME` closes them as one frame. -/
theorem exists_decoded_run {p : Params} {pol : BitVec 2} {q : Policy} {cs : List Colour} {moves : List Move}
    {a b c d : Ns} {h : Nat → Ns} (hne : cs ≠ []) (hq : policyOf p.hasExtraPolicies pol = some q)
    (hm : HostMoves d (a :: b :: ((List.range cs.length).map h ++ [c])) moves) (h0 : ToleratesGap p 0)
    (hh0 : 0 ≤ h 0) (hh : ∀ k, 0 < k → ToleratesGap p (h k)) :
    ∃ (k : Nat) (u : State),
      runOn p k (State.withProgram (encode (.new pol) :: encode .endFrame ::
        (cs.map fun c => encode (.write c.r c.g c.b)) ++ [encode .endFrame]) moves) = .next u ∧
      u.ended = true ∧ u.schedule = [] ∧ u.good = true ∧ u.engState = .idle ∧
      decodeWire p.tolRx u.trace u.t = .decoded [cs.map (bitsFor q)] [] := by
  obtain ⟨x, xs, rfl⟩ := List.exists_cons_of_ne_nil hne
  have hdrv := p.dDrv_nonneg
  have hlatch : 300000 ≤ p.dLatch := p.dLatch_ge
  obtain ⟨s₁, hlead₁, hs₁, htr₁⟩ := leads_new (p := p) hq hm
  obtain ⟨-, s₂, hlead₂, hs₂, htr₂, ht₂⟩ := leads_endFrame (p := p) hs₁
  have hr₂ : Received p.tolRx [] (drivenIntervals (s₂.t + h 0) s₂.trace) := by
    rw [htr₂, htr₁]
    exact received_first_latch (by linarith)
  obtain ⟨s₃, hlead₃, hs₃, hr₃⟩ := leads_writes hs₂ hr₂ hh
  obtain ⟨hc, s₄, hlead₄, hs₄, htr₄, ht₄⟩ := leads_endFrame (p := p) hs₃
  obtain ⟨hd, u, hlead₅, hended, hsched, hgood, hidle, htr₅, ht₅⟩ := hs₄.ended (p := p)
  obtain ⟨k, hk⟩ := hlead₁.trans (hlead₂.trans (hlead₃.trans (hlead₄.trans hlead₅)))
  refine ⟨k, u, hk, hended, hsched, hgood, hidle, ?_⟩
  rw [htr₅, htr₄]
  exact (hr₃ 0 h0).decodeWire p.tolRx_lt (by simp) (by linarith) (by linarith)

/-- HOST's moves as R149 schedules them, as gaps. -/
theorem hostMoves_scheduled {n : Nat} {a b c d : Ns} {h : Nat → Ns} (ha : 0 ≤ a) (hb : 0 ≤ b) (hc : 0 ≤ c) (hd : 0 ≤ d)
    (hh : ∀ k, 0 ≤ h k) :
    HostMoves d (a :: b :: ((List.range n).map h ++ [c]))
      ([Move.gap a, .issue, .gap b, .issue] ++ (List.range n).flatMap (fun k => [Move.gap (h k), .issue]) ++
        [.gap c, .issue, .gap d]) := by
  have hgaps : ∀ g ∈ a :: b :: ((List.range n).map h ++ [c]), 0 ≤ g := by
    simp only [List.forall_mem_cons, List.forall_mem_append, List.forall_mem_map]
    exact ⟨ha, hb, fun k _ => hh k, hc, List.forall_mem_nil _⟩
  simpa [List.flatMap_map] using HostMoves.scheduled hgaps hd

/-- Settles O58: with nothing scheduled every gap is 0, which the tolerance condition allows, and the statement's schedule
leaves the gaps it lists. -/
theorem decodingTheorem : Obligations.DecodingTheorem := by
  intro p pol q cs moves hne hq _ _ hshort hlong hm
  have h0 : ToleratesGap p 0 := ⟨le_rfl, by rwa [add_zero], by rwa [add_zero]⟩
  obtain rfl | ⟨a, b, c, d, h, ha, hb, hc, hd, hh, ht, rfl⟩ := hm
  · have hzero : HostMoves 0 (0 :: 0 :: ((List.range cs.length).map (fun _ => 0) ++ [0])) [] :=
      .default (by simp +contextual [or_imp]) rfl
    exact exists_decoded_run hne hq hzero h0 le_rfl fun _ _ => h0
  · refine exists_decoded_run hne hq (hostMoves_scheduled ha hb hc hd hh) h0 (hh 0) fun k hk => ?_
    obtain ⟨hs, hl⟩ := ht k hk
    exact ⟨hh k, hs, hl⟩

end Sys2Proof.Machine
end

section
/-!
PROOFS. The command faults (60_exceptions.md R152 to R155): NOT_BOUND, the precision of a fault taken at HOST's issue, and
FAULTED, in which HOST's gaps and ignored issues are all that is left besides a reset.
-/
namespace Sys2Proof.Machine

section
variable {p : Params} {w : Word} {s u : State}

/-! ### HOST's issue of a word -/

theorem State.engState_ne_faulted_of_accepting (ha : s.accepting = true) : s.engState ≠ .faulted := by
  rcases s.accepting_iff.mp ha with h | h <;> simp [h]

/-- A word the port takes for a command has that command's meaning (R115). -/
theorem issueWord_of_portCommand {run : Instr → State → Host.Outcome State Fault Refusal} {i : Instr}
    (ha : s.accepting = true) (hi : portCommand w = .ok i) : issueWord run w s = run i s := by
  simp [issueWord, State.engState_ne_faulted_of_accepting ha, hi]

/-- `Issued` holds of HOST's issue of any word in a state that accepts commands, whether or not the stream holds it. -/
theorem issued_of_issueWord (ha : s.accepting = true) (h : issueWord (execOn p) w s = .next u) : Issued p w s u := by
  cases hw : portCommand w with
  | error c =>
    rw [issueWord_of_error ha hw] at h
    cases h
    exact .rejected c ha (portCommand_error hw)
  | ok i =>
    rw [issueWord_of_portCommand ha hw] at h
    exact issued_of_execOn ha hw h

/-- The three acceptances leave IDLE, EMITTING and LATCHING (R116, R117, R120), so what leaves FAULTED is a fault. -/
theorem Issued.eq_raiseFault (h : Issued p w s u) (ha : s.accepting = true) (hu : u.engState = .faulted) :
    ∃ c, c ≠ .noFault ∧ u = s.takeWord.raiseFault c := by
  cases h with
  | rejected c _ hc => exact ⟨c, hc, rfl⟩
  | ignored hf => exact absurd hf (State.engState_ne_faulted_of_accepting ha)
  | bound | writing | latching => simp at hu

/-! ### FAULTED -/

theorem State.running_of_faulted (hf : s.engState = .faulted) : s.running = false := by
  simp [State.running, hf]

theorem Issued.eq_takeWord (h : Issued p w s u) (hf : s.engState = .faulted) : u = s.takeWord := by
  cases h with
  | ignored => rfl
  | rejected _ ha | bound _ _ ha | writing _ ha | latching ha =>
    exact absurd hf (State.engState_ne_faulted_of_accepting ha)

end

/-- Settles O26: each command's one check of BOUND. -/
theorem notBoundFaults : Obligations.NotBoundFaults :=
  ⟨fun _ _ _ _ => writeOn_of_unbound, fun _ => endFrameOn_of_unbound, rfl⟩

/-- Settles O27: of the outcomes of HOST's issue in a state that accepts commands only a fault has ENGINE FAULTED. -/
theorem faultAction : Obligations.FaultAction := by
  refine ⟨fun c s => ?_, fun s u w ha h hu => ?_⟩
  · by_cases hc : s.faultCode = .noFault <;> simp [State.raiseFault, State.recordFault, hc]
  · rw [exec_eq_execOn_params] at h
    exact (issued_of_issueWord ha h).eq_raiseFault ha hu

/-- Settles O29: FAULTED runs no command, so of the outcomes of a step a reset, a gap and an ignored issue are left. -/
theorem faultedIsSticky : Obligations.FaultedIsSticky := by
  intro s u hf h
  have hrest := State.running_of_faulted hf
  cases stepped_of_step h with
  | reset _ h => exact .inr h
  | stall l d hb => simp [State.running_of_betweenMicroOps hb] at hrest
  | microOp l i u hr => simp [hr] at hrest
  | gap l g => exact .inl (by simp [hf])
  | issue l w u hr hw hi =>
    obtain rfl := hi.eq_takeWord hf
    exact .inl (by simp [hf])

end Sys2Proof.Machine
end
